-- ==== Sys2Proof/Word.lean ====
section
/-! DEFINITION. The two data widths of BPX: 32-bit registers and 8-bit bytes (00_scope.md R7, R8). -/

namespace Sys2Proof

/-- A register value, `u32` of 00_scope.md R8; `REG_WIDTH` and `ADDR_WIDTH` of R7. -/
abbrev Word := BitVec 32

/-- An LMEM byte or a channel, `u8` of 00_scope.md R8; `CHANNEL_WIDTH` of R7. -/
abbrev Byte := BitVec 8

end Sys2Proof
end

