-- ==== Sys2Proof/Syntax.lean ====
section
/-! DEFINITION. What BPX is given: the thirteen commands, the sixteen registers of its window, the
host's accesses to them, the responses it returns, and whose turn it is. -/

namespace Sys2Proof

/-- The commands of 30_encoding.md R94, one constructor per row of the opcode table. No operand
stands in a command word (R90): operands come from the latch. -/
inductive Instr where
  | nop
  | crcInit
  | crcUpdate
  | crcByte
  | quant
  | dequant
  | pack
  | canvas
  | unpack
  | upscale2x
  | downscale2x
  | frameBuild
  | frameCheck
  deriving DecidableEq, Repr

/-- The sixteen register slots of 10_state.md R21, in the order of their offsets. -/
inductive Reg where
  | id
  | ctrl
  | status
  | cmd
  | src
  | dst
  | len
  | width
  | height
  | arg
  | result
  | crcState
  | crcResult
  | lmemAddr
  | lmemData
  | memSize
  deriving DecidableEq, Repr

/-- The two directions of a bus transaction `(offset, W|R, value)` of 30_encoding.md R98. -/
inductive AccessKind where
  | read
  | write (v : Word)
  deriving DecidableEq, Repr

/-- One host access to the register window: a byte offset from `BPX_BASE`, a width in bits and a
direction (20_memory.md R61, R69). -/
structure Access where
  offset : Nat
  width : Nat
  kind : AccessKind
  deriving DecidableEq, Repr

/-- What the host gets back when an access completes: a write done, a read's value, or the error
response of 60_exceptions.md R251. -/
inductive Response where
  | written
  | data (v : Word)
  | busError
  deriving DecidableEq, Repr

/-- Who moves: the host or the engine (40_control.md R109), or the platform with a hardware reset
(70_reset_and_hazards.md R270). -/
inductive Turn where
  | host
  | engine
  | hwReset
  deriving DecidableEq, Repr

end Sys2Proof
end

