-- ==== Sys2Proof/Config.lean ====
section
/-! DEFINITION. The parameters of 00_scope.md R7, and the values the spec leaves open. A constant
without a body is a free value: nothing can prove what it is. -/

namespace Sys2Proof.Config

/-- `LMEM_SIZE` of the build `State.reset` describes: OPEN in R7. DESIGN CHOICE (log 1): the size
spec/95_test_vectors.md uses. The size stands in State (`memSize`); statements hold for every size. -/
def lmemSize : Word := 0x1000#32

/-- The greatest `LMEM_SIZE` (R7). -/
def maxLmemSize : Nat := 2 ^ 31

/-- `BPX_BASE`, the host bus address of register offset 0x00: OPEN in R7 (log 8). -/
opaque bpxBase : Nat

/-- `ID_VALUE` (R7). -/
def idValue : Word := 0x42504E47#32

/-- `QSTEP` (R7, 43_quantizer.md R171). -/
def qStep : Nat := 85

/-- `LEN_CEILING` (R7): payload lengths are below it. -/
def lenCeiling : Nat := 2 ^ 24

/-- The mask of the `LEN_BITS` = 24 significant bits of the length field (42_frame.md R151). -/
def lenMask : Nat := 0x00FFFFFF

/-- `CHECKSUM_BYTES` + `LENGTH_BYTES` (R7): the bytes of a frame before its payload. -/
def headerBytes : Nat := 8

/-- `CRC_POLY` in its bit-reflected form (R7, 41_crc.md R130). -/
def crcPoly : Word := 0xEDB88320#32

/-- `CRC_INIT` (R7). -/
def crcInit : Word := 0xFFFFFFFF#32

/-- `CRC_XOROUT` (R7). -/
def crcXorOut : Word := 0xFFFFFFFF#32

/-- `WHITE` (R7): every channel of a white pixel. -/
def white : Byte := 0xFF#8

/-- Free values of 70_reset_and_hazards.md R272: what a destination byte of an abandoned command
holds. Applied to the counter `freeDraws` (log 5). -/
opaque freeByte : Nat → Byte

/-- `RESET_BUS_BEHAVIOUR` (70_reset_and_hazards.md R271), OPEN: the response, if any, the host gets
for an access that a hardware reset ends while it is held. Applied to `freeDraws` (log 6). -/
opaque resetBusResponse : Nat → Option Response

end Sys2Proof.Config

namespace Sys2Proof

/-- The host bus address of an access (00_scope.md R7, 10_state.md R21). -/
def Access.busAddress (a : Access) : Nat := Config.bpxBase + a.offset

end Sys2Proof
end

