-- ==== Sys2Proof/WellFormed.lean ====
section
/-! DEFINITION. The form BPX asks of what it is given: a command word (30_encoding.md R90, R94) and
a host access (20_memory.md R69, R70). -/

namespace Sys2Proof

/-- The field `OP` of a command word (R90). -/
def opField (w : Word) : Byte := w.extractLsb' 0 8

/-- The field `RSVD` of a command word (R90). -/
def rsvdField (w : Word) : BitVec 24 := w.extractLsb' 8 24

/-- The opcodes of R94, as the rule lists them. -/
def definedOps : List Byte :=
  [0x00#8, 0x01#8, 0x02#8, 0x03#8, 0x40#8, 0x41#8, 0x10#8, 0x11#8, 0x20#8, 0x21#8, 0x22#8, 0x30#8,
   0x31#8]

/-- A well-formed command word: `RSVD` = 0 (R90) and a defined `OP` (R94). -/
def wordWf (w : Word) : Bool := rsvdField w == 0#24 && definedOps.contains (opField w)

/-- Every command is well formed: it has no operand field that could be wrong (R90, R91). -/
def Instr.wf (_ : Instr) : Bool := true

/-- An access moves 32 bits (20_memory.md R69). -/
def Access.widthOk (a : Access) : Bool := a.width == 32

/-- The offset is a multiple of 4 (20_memory.md R69). -/
def Access.alignedOk (a : Access) : Bool := a.offset % 4 == 0

/-- The offset is inside the window (20_memory.md R70). -/
def Access.mappedOk (a : Access) : Bool := decide (a.offset < 0x40)

/-- A well-formed access; any other ends in a bus error (60_exceptions.md R251). -/
def Access.wf (a : Access) : Bool := a.widthOk && a.alignedOk && a.mappedOk

end Sys2Proof
end

