-- ==== Sys2Proof/Decode.lean ====
section
/-! DEFINITION. Decoding a command word (30_encoding.md R95), total and rejecting by name, and the
encoder written from the same table (R94). -/

namespace Sys2Proof

/-- Why a word is no command; both give `BADCMD` (R95, R96). -/
inductive DecodeError where
  | reservedNonzero
  | undefinedOp
  deriving DecidableEq, Repr

/-- The opcode map of R94, in its order. -/
def decodeOp (op : Byte) : Option Instr :=
  if op = 0x00#8 then some .nop
  else if op = 0x01#8 then some .crcInit
  else if op = 0x02#8 then some .crcUpdate
  else if op = 0x03#8 then some .crcByte
  else if op = 0x40#8 then some .frameBuild
  else if op = 0x41#8 then some .frameCheck
  else if op = 0x10#8 then some .quant
  else if op = 0x11#8 then some .dequant
  else if op = 0x20#8 then some .pack
  else if op = 0x21#8 then some .canvas
  else if op = 0x22#8 then some .unpack
  else if op = 0x30#8 then some .upscale2x
  else if op = 0x31#8 then some .downscale2x
  else none

/-- `decode(w)` of R95. -/
def decode (w : Word) : Except DecodeError Instr :=
  if rsvdField w ≠ 0#24 then .error .reservedNonzero
  else
    match decodeOp (opField w) with
    | none => .error .undefinedOp
    | some i => .ok i

/-- The opcode of each command (R94). -/
def opcode : Instr → Byte
  | .nop => 0x00#8
  | .crcInit => 0x01#8
  | .crcUpdate => 0x02#8
  | .crcByte => 0x03#8
  | .quant => 0x10#8
  | .dequant => 0x11#8
  | .pack => 0x20#8
  | .canvas => 0x21#8
  | .unpack => 0x22#8
  | .upscale2x => 0x30#8
  | .downscale2x => 0x31#8
  | .frameBuild => 0x40#8
  | .frameCheck => 0x41#8

/-- The word of a command: its `OP` with `RSVD` = 0 (R90, R94). -/
def encode (i : Instr) : Word := 0#24 ++ opcode i

/-- The command the decoder reads from an opcode-table word of `nbits` bits with value `w`. A
command is one 32-bit word (R91), so bit `k` of `w` is bit `k` of the word written to `CMD`. -/
def decodeTableWord (nbits w : Nat) : Option Instr :=
  if nbits ≤ 32 then (decode (BitVec.ofNat 32 (w % 2 ^ nbits))).toOption else none

end Sys2Proof
end

