-- ==== Sys2Proof/Machine/State.lean ====
section
/-! DEFINITION. The state of BPX (10_state.md R20 to R44), of its local memory (20_memory.md R60)
and of its two agents' next moves (40_control.md R109), and the state after reset. -/

namespace Sys2Proof.Machine

/-- The fault codes of 60_exceptions.md R241. -/
inductive FaultCode where
  | badCmd
  | range
  | overlap
  | lenCeil
  | malformed
  deriving DecidableEq, Repr

/-- The fields of `STATUS` (10_state.md R24). Its reserved bits are no state: they read 0 (R47). -/
structure Status where
  busy : Bool
  done : Bool
  err : Bool
  integOk : Bool
  errCode : Byte
  errOp : Byte
  deriving DecidableEq, Repr

/-- The in-flight command latch `op` (10_state.md R43, 40_control.md R110). -/
structure Latch where
  word : Word
  src : Word
  dst : Word
  len : Word
  width : Word
  height : Word
  arg : Word
  deriving DecidableEq, Repr

/-- LMEM: the bytes that have been written, by rising address (20_memory.md R60). A byte that is
not listed has no value (R82, log 2). -/
abbrev Memory := List Host.Cell

/-- The canonical form of memory: addresses strictly rising. An unlisted byte has no value, so no
entry can equal it. -/
abbrev Memory.wf (m : Memory) : Prop := m.Pairwise (fun c d => c.1 < d.1)

/-- BPX, with its environment. The first group are the registers of 10_state.md R21 that hold a
value, then the latch and LMEM (R20), then the model's own fields (log 4, log 5). -/
structure State where
  /-- `CTRL.IRQ_EN` (R23). -/
  irqEn : Bool
  /-- `STATUS` (R24). -/
  status : Status
  /-- `SRC` (R31). -/
  src : Word
  /-- `DST` (R32). -/
  dst : Word
  /-- `LEN` (R33). -/
  len : Word
  /-- `WIDTH` (R34). -/
  width : Word
  /-- `HEIGHT` (R35). -/
  height : Word
  /-- `ARG` (R36). -/
  arg : Word
  /-- `RESULT` (R37). -/
  result : Word
  /-- `CRC_STATE` (R38). -/
  crcState : Word
  /-- `LMEM_ADDR` (R40). -/
  lmemAddr : Word
  /-- `MEMSIZE` (R42): the parameter `LMEM_SIZE`; nothing writes it. -/
  memSize : Word
  /-- The latch `op` (R43). -/
  op : Latch
  /-- `LMEM` (20_memory.md R60). -/
  lmem : Memory
  /-- The accesses the host goes on to make, in its program order (40_control.md R109). -/
  hostQueue : List Access
  /-- The first access of `hostQueue` has been issued and is held (40_control.md R115). -/
  held : Bool
  /-- The responses of the completed accesses, newest first. -/
  responses : List Response
  /-- Whose turns come next; when it is empty the engine moves if `BUSY` = 1, else the host. -/
  schedule : List Turn
  /-- How many free values have been drawn. -/
  freeDraws : Nat
  deriving DecidableEq, Repr

/-- Why the model stops. -/
inductive Fault where
  /-- A command or a host read of `LMEM_DATA` needs an LMEM byte that nothing has written since
  power-up: 20_memory.md R82 gives it no value and recommends this fault. Safe: the model stops where
  the hardware goes on with an unspecified value. -/
  | unwrittenByte
  deriving DecidableEq, Repr

/-- Why the model has no meaning for an instruction. -/
inductive Refusal where
  /-- An arm of `exec` whose instruction has no meaning yet. No arm of this model raises it. Safe. -/
  | notModelled (mnemonic : String)
  deriving DecidableEq, Repr

/-- The reset value of `STATUS` (10_state.md R24, 70_reset_and_hazards.md R275). -/
def Status.reset : Status :=
  { busy := false, done := false, err := false, integOk := false, errCode := 0#8, errOp := 0#8 }

/-- The emptied latch (70_reset_and_hazards.md R271). DESIGN CHOICE (log 3): all zero; its content
is irrelevant while `BUSY` = 0 (R43). -/
def Latch.empty : Latch :=
  { word := 0#32, src := 0#32, dst := 0#32, len := 0#32, width := 0#32, height := 0#32, arg := 0#32 }

/-- BPX with `LMEM_SIZE` = `size` after power-up (70_reset_and_hazards.md R274, R275), no LMEM byte
written (R82), and a host that makes no access. -/
def State.resetOf (size : Word) : State :=
  { irqEn := false
    status := Status.reset
    src := 0#32
    dst := 0#32
    len := 0#32
    width := 0#32
    height := 0#32
    arg := 0#32
    result := 0#32
    crcState := Config.crcInit
    lmemAddr := 0#32
    memSize := size
    op := Latch.empty
    lmem := []
    hostQueue := []
    held := false
    responses := []
    schedule := []
    freeDraws := 0 }

/-- The machine right after reset (70_reset_and_hazards.md R275). -/
def State.reset : State := State.resetOf Config.lmemSize

end Sys2Proof.Machine
end

