-- ==== Sys2Proof/Machine/Arith.lean ====
section
/-! DEFINITION. The arithmetic and byte-order helpers of 00_scope.md R9, R10 and 44_pixel_pack.md
R194. Arithmetic is on unbounded naturals; what is written keeps its low 32 or 8 bits (R9). -/

namespace Sys2Proof.Machine

/-- `ceil_div(a, b)` (R9). -/
def ceilDiv (a b : Nat) : Nat := (a + b - 1) / b

/-- The greatest number `r + x` with `x < 2 ^ k` whose square is below `n`, if `r * r < n`: one bit
of it per step, from bit `k - 1` down. -/
def rootBelow (n : Nat) : Nat → Nat → Nat
  | 0, r => r
  | k + 1, r => rootBelow n k (if (r + 2 ^ k) * (r + 2 ^ k) < n then r + 2 ^ k else r)

/-- `csqrt(n)`: the least `s` with `n ≤ s * s` (R9, R194), one above the greatest number whose
square is below `n`. -/
def csqrt (n : Nat) : Nat := if n = 0 then 0 else rootBelow n (n.log2 + 1) 0 + 1

/-- The low 32 bits of a natural, as a register write keeps them (R9). -/
def toWord (n : Nat) : Word := BitVec.ofNat 32 n

/-- The low 8 bits of a natural, as a byte write keeps them (R9). -/
def toByte (n : Nat) : Byte := BitVec.ofNat 8 n

/-- `le32(v)` (R10): the bytes of a word, least significant first. -/
def le32 (v : Word) : List Byte :=
  [v.extractLsb' 0 8, v.extractLsb' 8 8, v.extractLsb' 16 8, v.extractLsb' 24 8]

/-- Byte `i` of a byte sequence; 0 past its end (44_pixel_pack.md R190, R196). -/
def byteAt (bs : List Byte) (i : Nat) : Byte := bs.getD i 0#8

/-- `fromle32([b0, b1, b2, b3])` (R10), of the first four bytes. -/
def fromLe32 (bs : List Byte) : Nat :=
  (byteAt bs 0).toNat + 2 ^ 8 * (byteAt bs 1).toNat + 2 ^ 16 * (byteAt bs 2).toNat
    + 2 ^ 24 * (byteAt bs 3).toNat

end Sys2Proof.Machine
end

