-- ==== Sys2Proof/Machine/Flags.lean ====
section
/-! DEFINITION. Everything that reads or writes a field of `STATUS` (10_state.md R24 to R29, 40_control.md
R110, R111, 60_exceptions.md R241, R248, R249) and the interrupt output (10_state.md R44). -/

namespace Sys2Proof.Machine

/-- `STATUS.ERRCODE` of each fault (60_exceptions.md R241). -/
def FaultCode.code : FaultCode → Byte
  | .badCmd => 0x01#8
  | .range => 0x02#8
  | .overlap => 0x03#8
  | .lenCeil => 0x04#8
  | .malformed => 0x05#8

/-- `STATUS` as the host reads it (10_state.md R24): `ERROP` in bits 23:16, `ERRCODE` in bits 15:8,
then `INTEG_OK`, `ERR`, `DONE`, `BUSY` in bits 3 to 0; the rest reads 0 (R47). -/
def Status.toWord (t : Status) : Word :=
  0#8 ++ t.errOp ++ t.errCode ++ 0#4 ++ BitVec.ofBool t.integOk ++ BitVec.ofBool t.err
    ++ BitVec.ofBool t.done ++ BitVec.ofBool t.busy

/-- The status part of accepting a command (40_control.md R110). -/
def Status.accept (t : Status) : Status := { t with busy := true, done := false }

/-- The status part of completing a command (40_control.md R111). -/
def Status.complete (t : Status) : Status := { t with busy := false, done := true }

/-- Recording a fault (60_exceptions.md R248): `ERR`, `ERRCODE` and `ERROP`. -/
def Status.recordFault (code : FaultCode) (op : Byte) (t : Status) : Status :=
  { t with err := true, errCode := code.code, errOp := op }

/-- Writing `INTEG_OK` (42_frame.md R153, 60_exceptions.md R248). -/
def Status.setInteg (b : Bool) (t : Status) : Status := { t with integOk := b }

/-- Clearing a recorded fault (10_state.md R24, 60_exceptions.md R249). -/
def Status.clearFault (t : Status) : Status := { t with err := false, errCode := 0#8, errOp := 0#8 }

/-- A host write of `v` to `STATUS` (10_state.md R24): bit 1 clears `DONE`, bit 2 acknowledges the
fault, nothing else happens. -/
def Status.hostWrite (v : Word) (t : Status) : Status :=
  let t := if v.getLsbD 1 then { t with done := false } else t
  if v.getLsbD 2 then t.clearFault else t

/-- The interrupt output `IRQ` (10_state.md R44, 60_exceptions.md R252). -/
def State.irq (s : State) : Bool := s.irqEn && (s.status.done || s.status.err)

end Sys2Proof.Machine
end

