-- ==== Sys2Proof/Machine/Operands.lean ====
section
/-! DEFINITION. The operands of a command: the sub-fields of `ARG` (30_encoding.md R93), the latched
registers as naturals (R92), the LMEM ranges a command reads and writes (R97), and the two range tests
(20_memory.md R73, R74). -/

namespace Sys2Proof.Machine

/-- `BYTE` of CRC_BYTE and QUANT, `CHAN` of DEQUANT: `ARG[7:0]` (R93). -/
def Latch.argByte (op : Latch) : Byte := op.arg.extractLsb' 0 8

/-- `SLICE` of QUANT: `ARG[9:8]` (R93). -/
def Latch.argSlice (op : Latch) : BitVec 2 := op.arg.extractLsb' 8 2

/-- `op.SRC` as a byte address (10_state.md R31). -/
def Latch.srcAddr (op : Latch) : Nat := op.src.toNat

/-- `op.DST` as a byte address (10_state.md R32). -/
def Latch.dstAddr (op : Latch) : Nat := op.dst.toNat

/-- `op.LEN` as a count (10_state.md R33). -/
def Latch.count (op : Latch) : Nat := op.len.toNat

/-- `op.WIDTH` in pixels (10_state.md R34). -/
def Latch.w (op : Latch) : Nat := op.width.toNat

/-- `op.HEIGHT` in pixels (10_state.md R35). -/
def Latch.h (op : Latch) : Nat := op.height.toNat

/-- `range(a, n)` (00_scope.md R12): `size` bytes from address `base` on. -/
structure Range where
  base : Nat
  size : Nat
  deriving DecidableEq, Repr

/-- `in_lmem(a, n)` (20_memory.md R73), for an LMEM of `size` bytes. -/
def Range.inLmem (r : Range) (size : Nat) : Bool := r.size == 0 || decide (r.base + r.size ≤ size)

/-- `overlap(a, n, b, m)` (20_memory.md R74). -/
def Range.overlaps (r t : Range) : Bool :=
  decide (0 < r.size) && decide (0 < t.size) && decide (r.base < t.base + t.size)
    && decide (t.base < r.base + r.size)

/-- The source range of each command (30_encoding.md R97). -/
def srcRange (i : Instr) (op : Latch) : Option Range :=
  match i with
  | .nop | .crcInit | .crcByte | .quant | .dequant => none
  | .crcUpdate | .frameBuild | .frameCheck | .pack => some ⟨op.srcAddr, op.count⟩
  | .canvas | .unpack => some ⟨op.srcAddr, 3 * op.count⟩
  | .upscale2x | .downscale2x => some ⟨op.srcAddr, 3 * op.w * op.h⟩

/-- The destination range of each command (30_encoding.md R97). -/
def dstRange (i : Instr) (op : Latch) : Option Range :=
  match i with
  | .nop | .crcInit | .crcUpdate | .crcByte | .quant | .dequant | .frameCheck => none
  | .frameBuild => some ⟨op.dstAddr, op.count + 8⟩
  | .pack => some ⟨op.dstAddr, 12 * ceilDiv op.count 3⟩
  | .canvas => some ⟨op.dstAddr, 3 * csqrt op.count * csqrt op.count⟩
  | .unpack => some ⟨op.dstAddr, 3 * ceilDiv op.count 4⟩
  | .upscale2x => some ⟨op.dstAddr, 12 * op.w * op.h⟩
  | .downscale2x => some ⟨op.dstAddr, 3 * (op.w / 2) * (op.h / 2)⟩

end Sys2Proof.Machine
end

