-- ==== Sys2Proof/Machine/Ops.lean ====
section
/-! DEFINITION. The shared operations: reading and writing LMEM (00_scope.md R11), the updates of State,
a command's checks (60_exceptions.md R247), taking a fault (R248) and acknowledging it (R249), accepting
and completing a command (40_control.md R110, R111), and the two resets (70_reset_and_hazards.md R271 to
R273). -/

namespace Sys2Proof.Machine

/-- What a step or a meaning answers. -/
abbrev Result := Host.Outcome State Fault Refusal

/-! ### LMEM -/

/-- `LMEM[a]`; no value where nothing has been written (20_memory.md R82). -/
def Memory.read (m : Memory) (a : Nat) : Option Byte := m.lookup a

/-- The bytes a function gives at each of the listed places; no value if one of them has none. -/
def readAll (f : Nat → Option Byte) : List Nat → Option (List Byte)
  | [] => some []
  | k :: ks =>
    match f k, readAll f ks with
    | some b, some bs => some (b :: bs)
    | _, _ => none

/-- `MemRead(addr, n)` (00_scope.md R11). -/
def Memory.readBytes (m : Memory) (a n : Nat) : Option (List Byte) :=
  readAll (fun i => m.read (a + i)) (List.range n)

/-- A byte sequence laid out from address `a` on. -/
def cellsFrom : Nat → List Byte → Memory
  | _, [] => []
  | a, b :: bs => (a, b) :: cellsFrom (a + 1) bs

/-- `MemWrite(addr, n, s)` with `n` = `len(s)` (00_scope.md R11). -/
def Memory.writeBytes (m : Memory) (a : Nat) (bs : List Byte) : Memory :=
  m.filter (fun c => decide (c.1 < a)) ++ cellsFrom a bs
    ++ m.filter (fun c => decide (a + bs.length ≤ c.1))

/-! ### Updates of State -/

/-- `r[RESULT] <- n`, keeping the low 32 bits (R9). -/
def State.setResult (n : Nat) (s : State) : State := { s with result := toWord n }

/-- `r[CRC_STATE] <- c`. -/
def State.setCrc (c : Word) (s : State) : State := { s with crcState := c }

/-- `r[STATUS]` takes the value `t`. -/
def State.setStatus (t : Status) (s : State) : State := { s with status := t }

/-- `MemWrite` of a command or of the host port. -/
def State.store (a : Nat) (bs : List Byte) (s : State) : State :=
  { s with lmem := s.lmem.writeBytes a bs }

/-- `LMEM_ADDR` advances by 1 modulo 2^32 (20_memory.md R62, R63). -/
def State.advancePort (s : State) : State := { s with lmemAddr := s.lmemAddr + 1#32 }

/-- The bus answers the host. -/
def State.respond (r : Response) (s : State) : State := { s with responses := r :: s.responses }

/-! ### Taking a fault and returning from it -/

/-- Recording a fault (60_exceptions.md R248): `ERR`, `ERRCODE`, and `ERROP` from the latched word; a
FRAME_CHECK that faults also clears `INTEG_OK`. `cmd` is the decoded command, none for `BADCMD`. The
completion writes follow in `State.complete`. -/
def raiseFault (cmd : Option Instr) (code : FaultCode) (s : State) : State :=
  let t := s.status.recordFault code (opField s.op.word)
  s.setStatus (if cmd = some .frameCheck then t.setInteg false else t)

/-- The acknowledge (60_exceptions.md R249): a host write of `v` to `STATUS` (10_state.md R24). BPX has
no other return from a fault. -/
def acknowledge (v : Word) (s : State) : State := s.setStatus (s.status.hostWrite v)

/-! ### The checks of a command -/

/-- A range the command does not have is never out of LMEM. -/
def rangeOk (r : Option Range) (size : Nat) : Bool :=
  match r with
  | none => true
  | some r => r.inLmem size

/-- `OVERLAP` asks for both ranges (60_exceptions.md R244). -/
def rangesOverlap (r t : Option Range) : Bool :=
  match r, t with
  | some r, some t => r.overlaps t
  | _, _ => false

/-- The first check that fails before a command reads LMEM, in the order of 60_exceptions.md R247.
`MALFORMED` comes after them, in FRAME_CHECK's own meaning. -/
def firstFault (i : Instr) (op : Latch) (size : Nat) : Option FaultCode :=
  if i = .frameBuild ∧ Config.lenCeiling ≤ op.count then some .lenCeil
  else if ¬ rangeOk (srcRange i op) size then some .range
  else if ¬ rangeOk (dstRange i op) size then some .range
  else if rangesOverlap (srcRange i op) (dstRange i op) then some .overlap
  else none

/-- The template of 40_control.md R116: the checks, then either the fault or the effects. -/
def withChecks (i : Instr) (s : State) (effects : Result) : Result :=
  match firstFault i s.op s.memSize.toNat with
  | some code => .next (raiseFault (some i) code s)
  | none => effects

/-- Go on with what was read from LMEM, or stop where a byte has no value (20_memory.md R82). -/
def withBytes (bs : Option (List Byte)) (k : List Byte → Result) : Result :=
  match bs with
  | some bs => k bs
  | none => .fault .unwrittenByte

/-! ### The life of a command -/

/-- Accept (40_control.md R110): the word and the six operand registers are latched. -/
def State.accept (w : Word) (s : State) : State :=
  { s with
    status := s.status.accept
    op := { word := w, src := s.src, dst := s.dst, len := s.len, width := s.width
            height := s.height, arg := s.arg } }

/-- Completion (40_control.md R111): `BUSY` falls, `DONE` rises, and a held access is held no longer
(R115). -/
def State.complete (s : State) : State := { s with status := s.status.complete, held := false }

/-- Apply a state change to a next state; a stop stays as it is. -/
def onNext (f : State → State) : Result → Result
  | .next s => .next (f s)
  | .fault r => .fault r
  | .refused r => .refused r

/-! ### Reset -/

/-- The register effects of either reset (70_reset_and_hazards.md R271, R273, R275). LMEM, `MEMSIZE` and
the model's own fields stay. -/
def resetRegisters (s : State) : State :=
  { s with
    irqEn := false
    status := Status.reset
    src := 0#32
    dst := 0#32
    len := 0#32
    width := 0#32
    height := 0#32
    arg := 0#32
    result := 0#32
    crcState := Config.crcInit
    lmemAddr := 0#32
    op := Latch.empty }

/-- The part of a range that is in LMEM: its first address and how many of its bytes are there. -/
def Range.clip (r : Range) (size : Nat) : Nat := min r.size (size - r.base)

/-- The destination range of the latched command; none for a word that is no command. -/
def latchedDst (op : Latch) : Option Range :=
  match decode op.word with
  | .ok i => dstRange i op
  | .error _ => none

/-- A hardware reset abandons the latched command: each byte of its destination range that is in LMEM
takes a free value (70_reset_and_hazards.md R272, log 5). -/
def abandonCommand (s : State) : State :=
  match latchedDst s.op with
  | none => s
  | some r =>
    let n := r.clip s.memSize.toNat
    { s with
      lmem := s.lmem.writeBytes r.base ((List.range n).map (fun k => Config.freeByte (s.freeDraws + k)))
      freeDraws := s.freeDraws + n }

/-- The platform ends a held access at a hardware reset; what the host gets for it is
`RESET_BUS_BEHAVIOUR` (70_reset_and_hazards.md R271, log 6). -/
def endHeldAccess (s : State) : State :=
  if s.held then
    { s with
      hostQueue := s.hostQueue.tail
      held := false
      responses := (Config.resetBusResponse s.freeDraws).toList ++ s.responses
      freeDraws := s.freeDraws + 1 }
  else s

/-- The hardware reset (70_reset_and_hazards.md R271, R272). -/
def hardwareReset (s : State) : State :=
  resetRegisters (endHeldAccess (if s.status.busy then abandonCommand s else s))

/-- The soft reset (70_reset_and_hazards.md R273). -/
def softReset (s : State) : State := resetRegisters s

end Sys2Proof.Machine
end

