-- ==== Sys2Proof/Machine/Control.lean ====
section
/-! DEFINITION. The control command (40_control.md R114). -/

namespace Sys2Proof.Machine

/-- `NOP` (40_control.md R114). -/
def execNop (s : State) : Result := .next s

end Sys2Proof.Machine
end

