-- ==== Sys2Proof/Machine/Crc.lean ====
section
/-! DEFINITION. The CRC-32 generator and its commands (41_crc.md). -/

namespace Sys2Proof.Machine

/-- One bit of `crc_step` (41_crc.md R130). -/
def crcShift (c : Word) : Word :=
  if c.getLsbD 0 then (c >>> 1) ^^^ Config.crcPoly else c >>> 1

/-- `crc_step(c, b)` (41_crc.md R130). -/
def crcStep (c : Word) (b : Byte) : Word := crcShift^[8] (c ^^^ b.setWidth 32)

/-- `crc_update(c, s)` (41_crc.md R130). -/
def crcUpdate (c : Word) (bs : List Byte) : Word := bs.foldl crcStep c

/-- `CRC32(s)` (41_crc.md R130). -/
def crc32 (bs : List Byte) : Word := crcUpdate Config.crcInit bs ^^^ Config.crcXorOut

/-- `CRC_INIT` (41_crc.md R132). -/
def execCrcInit (s : State) : Result := .next (s.setCrc Config.crcInit)

/-- `CRC_UPDATE` (41_crc.md R133). -/
def execCrcUpdate (s : State) : Result :=
  withChecks .crcUpdate s <|
    withBytes (s.lmem.readBytes s.op.srcAddr s.op.count) fun bs =>
      .next (s.setCrc (crcUpdate s.crcState bs))

/-- `CRC_BYTE` (41_crc.md R134). -/
def execCrcByte (s : State) : Result := .next (s.setCrc (crcStep s.crcState s.op.argByte))

end Sys2Proof.Machine
end

