-- ==== Sys2Proof/Machine/Frame.lean ====
section
/-! DEFINITION. The frame builder and the frame checker (42_frame.md). -/

namespace Sys2Proof.Machine

/-- The CRC register after the length field and the payload (42_frame.md R152). -/
def frameCrc (p : List Byte) : Word := crcUpdate Config.crcInit (le32 (toWord p.length) ++ p)

/-- `frame(p)` (42_frame.md R150): checksum, length, payload. -/
def frameBytes (p : List Byte) : List Byte :=
  le32 (frameCrc p ^^^ Config.crcXorOut) ++ le32 (toWord p.length) ++ p

/-- `declared(f)` (42_frame.md R151): the length field, masked to its low 24 bits. -/
def declaredLen (hdr : List Byte) : Nat := fromLe32 (hdr.drop 4) &&& Config.lenMask

/-- `FRAME_BUILD` (42_frame.md R152). -/
def execFrameBuild (s : State) : Result :=
  withChecks .frameBuild s <|
    withBytes (s.lmem.readBytes s.op.srcAddr s.op.count) fun p =>
      .next (((s.store s.op.dstAddr (frameBytes p)).setCrc (frameCrc p)).setResult (s.op.count + 8))

/-- The effects of `FRAME_CHECK` on a well-formed buffer of declared length `d` (42_frame.md R153). -/
def checkFrame (s : State) (hdr : List Byte) (d : Nat) : Result :=
  withBytes (s.lmem.readBytes (s.op.srcAddr + 4) (4 + d)) fun body =>
    let c := crcUpdate Config.crcInit body
    let ok := (c ^^^ Config.crcXorOut).toNat == fromLe32 hdr
    .next (((s.setCrc c).setStatus (s.status.setInteg ok)).setResult d)

/-- `FRAME_CHECK` (42_frame.md R153). The two `MALFORMED` tests come after the range check, the short
buffer first (60_exceptions.md R247). -/
def execFrameCheck (s : State) : Result :=
  withChecks .frameCheck s <|
    if s.op.count < Config.headerBytes then .next (raiseFault (some .frameCheck) .malformed s)
    else
      withBytes (s.lmem.readBytes s.op.srcAddr Config.headerBytes) fun hdr =>
        let d := declaredLen hdr
        if s.op.count - Config.headerBytes < d then
          .next (raiseFault (some .frameCheck) .malformed s)
        else checkFrame s hdr d

end Sys2Proof.Machine
end

