-- ==== Sys2Proof/Machine/Quantizer.lean ====
section
/-! DEFINITION. The 2-bit quantizer (43_quantizer.md). A symbol is a natural number in 0..3. -/

namespace Sys2Proof.Machine

/-- `sym(b, k)` (43_quantizer.md R170): slice `k` of a byte, most significant pair first. -/
def sym (b : Byte) (k : Nat) : Nat := (b.toNat >>> (6 - 2 * k)) &&& 3

/-- `q(s)` (43_quantizer.md R171). -/
def q (s : Nat) : Byte := toByte (Config.qStep * s)

/-- `dq(c)` (43_quantizer.md R172), with its clamp. -/
def dq (c : Byte) : Nat := min 3 ((c.toNat + 42) / Config.qStep)

/-- `QUANT` (43_quantizer.md R173). -/
def execQuant (s : State) : Result :=
  .next (s.setResult (q (sym s.op.argByte s.op.argSlice.toNat)).toNat)

/-- `DEQUANT` (43_quantizer.md R174). -/
def execDequant (s : State) : Result := .next (s.setResult (dq s.op.argByte))

end Sys2Proof.Machine
end

