-- ==== Sys2Proof/Machine/PixelPack.lean ====
section
/-! DEFINITION. The pixel-packing unit (44_pixel_pack.md). -/

namespace Sys2Proof.Machine

/-- The twelve channels of group `g` of a frame (44_pixel_pack.md R190, R191): channel `j` carries slice
`j mod 4` of the group's byte `j div 4`, absent bytes 0. -/
def packGroup (f : List Byte) (g : Nat) : List Byte :=
  (List.range 12).map fun j => q (sym (byteAt f (3 * g + j / 4)) (j % 4))

/-- The pixel array of a frame (44_pixel_pack.md R192). -/
def packBytes (f : List Byte) : List Byte := (List.range (ceilDiv f.length 3)).flatMap (packGroup f)

/-- `PACK` (44_pixel_pack.md R192). -/
def execPack (s : State) : Result :=
  withChecks .pack s <|
    withBytes (s.lmem.readBytes s.op.srcAddr s.op.count) fun f =>
      .next ((s.store s.op.dstAddr (packBytes f)).setResult (4 * ceilDiv s.op.count 3))

/-- Pixel number `i` of a pixel array (00_scope.md R12, 20_memory.md R67). -/
def pixelAt (f : List Byte) (i : Nat) : List Byte :=
  [byteAt f (3 * i), byteAt f (3 * i + 1), byteAt f (3 * i + 2)]

/-- The white pixel (44_pixel_pack.md R195). -/
def whitePixel : List Byte := [Config.white, Config.white, Config.white]

/-- The canvas of `p` pixels, row-major, the rest white (44_pixel_pack.md R195). -/
def canvasBytes (p : Nat) (f : List Byte) : List Byte :=
  (List.range (csqrt p * csqrt p)).flatMap fun i => if i < p then pixelAt f i else whitePixel

/-- `CANVAS` (44_pixel_pack.md R195). -/
def execCanvas (s : State) : Result :=
  withChecks .canvas s <|
    withBytes (s.lmem.readBytes s.op.srcAddr (3 * s.op.count)) fun f =>
      .next ((s.store s.op.dstAddr (canvasBytes s.op.count f)).setResult (csqrt s.op.count))

/-- Channel `j` of group `g` of `n` pixels; missing pixels read as 0 (44_pixel_pack.md R196). -/
def groupChannel (n : Nat) (f : List Byte) (g j : Nat) : Byte :=
  if 4 * g + j / 3 < n then byteAt f (3 * (4 * g + j / 3) + j % 3) else 0#8

/-- `Wd` of group `g` (44_pixel_pack.md R196): twelve symbols, the first in the highest bits. -/
def groupWord (n : Nat) (f : List Byte) (g : Nat) : Nat :=
  (List.range 12).foldl (fun wd j => wd ||| (dq (groupChannel n f g j) <<< (22 - 2 * j))) 0

/-- The three bytes of group `g` (44_pixel_pack.md R196). -/
def unpackGroup (n : Nat) (f : List Byte) (g : Nat) : List Byte :=
  let wd := groupWord n f g
  [toByte (wd >>> 16), toByte (wd >>> 8), toByte wd]

/-- The bytes of an array of `n` pixels (44_pixel_pack.md R196). -/
def unpackBytes (n : Nat) (f : List Byte) : List Byte :=
  (List.range (ceilDiv n 4)).flatMap (unpackGroup n f)

/-- `UNPACK` (44_pixel_pack.md R196). -/
def execUnpack (s : State) : Result :=
  withChecks .unpack s <|
    withBytes (s.lmem.readBytes s.op.srcAddr (3 * s.op.count)) fun f =>
      .next ((s.store s.op.dstAddr (unpackBytes s.op.count f)).setResult (3 * ceilDiv s.op.count 4))

end Sys2Proof.Machine
end

