-- ==== Sys2Proof/Machine/Resampler.lean ====
section
/-! DEFINITION. The box-filter resampler (45_resampler.md). Images are row-major: pixel number `k` of an
image of width `w` is the pixel (k mod w, k div w) (20_memory.md R68). -/

namespace Sys2Proof.Machine

/-- The image of width 2w and height 2h (45_resampler.md R220): pixel (x, y) is the source pixel
(x div 2, y div 2). -/
def upscaleBytes (w h : Nat) (f : List Byte) : List Byte :=
  (List.range (2 * w * (2 * h))).flatMap fun k =>
    pixelAt f ((k / (2 * w)) / 2 * w + (k % (2 * w)) / 2)

/-- `UPSCALE2X` (45_resampler.md R221). -/
def execUpscale2x (s : State) : Result :=
  withChecks .upscale2x s <|
    withBytes (s.lmem.readBytes s.op.srcAddr (3 * s.op.w * s.op.h)) fun f =>
      .next ((s.store s.op.dstAddr (upscaleBytes s.op.w s.op.h f)).setResult (2 * s.op.w))

/-- `PixAddr(base, W, x, y)` (00_scope.md R12, 20_memory.md R68). -/
def pixAddr (base w x y : Nat) : Nat := base + 3 * (y * w + x)

/-- The mean of four samples, rounded half up (45_resampler.md R222). -/
def boxMean (a b c d : Byte) : Byte := toByte ((a.toNat + b.toNat + c.toNat + d.toNat + 2) / 4)

/-- Channel `ch` of the 2 by 2 block at (2x, 2y) of an image in LMEM (45_resampler.md R223); no value
if one of its four bytes has none. -/
def blockMean (m : Memory) (base w x y ch : Nat) : Option Byte :=
  match m.read (pixAddr base w (2 * x) (2 * y) + ch), m.read (pixAddr base w (2 * x + 1) (2 * y) + ch),
    m.read (pixAddr base w (2 * x) (2 * y + 1) + ch),
    m.read (pixAddr base w (2 * x + 1) (2 * y + 1) + ch) with
  | some a, some b, some c, some d => some (boxMean a b c d)
  | _, _, _, _ => none

/-- The image of width w div 2 and height h div 2 (45_resampler.md R222), read sample by sample: an odd
last row or column is not read. -/
def downscaleRead (m : Memory) (base w h : Nat) : Option (List Byte) :=
  readAll
    (fun k => blockMean m base w (k / 3 % (w / 2)) (k / 3 / (w / 2)) (k % 3))
    (List.range (3 * (w / 2) * (h / 2)))

/-- `DOWNSCALE2X` (45_resampler.md R223). -/
def execDownscale2x (s : State) : Result :=
  withChecks .downscale2x s <|
    withBytes (downscaleRead s.lmem s.op.srcAddr s.op.w s.op.h) fun out =>
      .next ((s.store s.op.dstAddr out).setResult (s.op.w / 2))

end Sys2Proof.Machine
end

