-- ==== Sys2Proof/Machine/Dispatch.lean ====
section
/-! DEFINITION. `exec(op)` after decoding (40_control.md R116): one meaning per command. -/

namespace Sys2Proof.Machine

def exec (i : Instr) (s : State) : Host.Outcome State Fault Refusal :=
  match i with
  | .nop => Sys2Proof.Machine.execNop s
  | .crcInit => Sys2Proof.Machine.execCrcInit s
  | .crcUpdate => Sys2Proof.Machine.execCrcUpdate s
  | .crcByte => Sys2Proof.Machine.execCrcByte s
  | .quant => Sys2Proof.Machine.execQuant s
  | .dequant => Sys2Proof.Machine.execDequant s
  | .pack => Sys2Proof.Machine.execPack s
  | .canvas => Sys2Proof.Machine.execCanvas s
  | .unpack => Sys2Proof.Machine.execUnpack s
  | .upscale2x => Sys2Proof.Machine.execUpscale2x s
  | .downscale2x => Sys2Proof.Machine.execDownscale2x s
  | .frameBuild => Sys2Proof.Machine.execFrameBuild s
  | .frameCheck => Sys2Proof.Machine.execFrameCheck s

end Sys2Proof.Machine
end

