-- ==== Sys2Proof/Machine/HostPort.lean ====
section
/-! DEFINITION. The host's accesses to the register window (10_state.md R21 to R50, 20_memory.md R62 to
R72, 40_control.md R115, 60_exceptions.md R251). -/

namespace Sys2Proof.Machine

/-- The register at each offset (10_state.md R21). -/
def regAt (offset : Nat) : Option Reg :=
  if offset = 0x00 then some .id
  else if offset = 0x04 then some .ctrl
  else if offset = 0x08 then some .status
  else if offset = 0x0C then some .cmd
  else if offset = 0x10 then some .src
  else if offset = 0x14 then some .dst
  else if offset = 0x18 then some .len
  else if offset = 0x1C then some .width
  else if offset = 0x20 then some .height
  else if offset = 0x24 then some .arg
  else if offset = 0x28 then some .result
  else if offset = 0x2C then some .crcState
  else if offset = 0x30 then some .crcResult
  else if offset = 0x34 then some .lmemAddr
  else if offset = 0x38 then some .lmemData
  else if offset = 0x3C then some .memSize
  else none

/-- The offset of each register (10_state.md R21). -/
def regOffset : Reg → Nat
  | .id => 0x00
  | .ctrl => 0x04
  | .status => 0x08
  | .cmd => 0x0C
  | .src => 0x10
  | .dst => 0x14
  | .len => 0x18
  | .width => 0x1C
  | .height => 0x20
  | .arg => 0x24
  | .result => 0x28
  | .crcState => 0x2C
  | .crcResult => 0x30
  | .lmemAddr => 0x34
  | .lmemData => 0x38
  | .memSize => 0x3C

/-- The register an access reaches; none for an access that ends in a bus error for width, alignment
or offset (20_memory.md R69, R70). -/
def accessTarget (a : Access) : Option Reg := if a.wf then regAt a.offset else none

/-- `CRC_RESULT` (10_state.md R39). -/
def State.crcResult (s : State) : Word := s.crcState ^^^ Config.crcXorOut

/-- What a register reads (10_state.md R22 to R42). `LMEM_DATA` is a port and holds no value (R41). -/
def regValue (r : Reg) (s : State) : Option Word :=
  match r with
  | .id => some Config.idValue
  | .ctrl => some (0#31 ++ BitVec.ofBool s.irqEn)
  | .status => some s.status.toWord
  | .cmd => some 0#32
  | .src => some s.src
  | .dst => some s.dst
  | .len => some s.len
  | .width => some s.width
  | .height => some s.height
  | .arg => some s.arg
  | .result => some s.result
  | .crcState => some s.crcState
  | .crcResult => some s.crcResult
  | .lmemAddr => some s.lmemAddr
  | .lmemData => none
  | .memSize => some s.memSize

/-- `LMEM_ADDR < LMEM_SIZE` (20_memory.md R62 to R64). -/
def State.portInLmem (s : State) : Bool := decide (s.lmemAddr.toNat < s.memSize.toNat)

/-- A host read of `LMEM_DATA` (20_memory.md R63, R64). -/
def portRead (s : State) : Result :=
  if s.portInLmem then
    match s.lmem.read s.lmemAddr.toNat with
    | some b => .next (s.advancePort.respond (.data (b.setWidth 32)))
    | none => .fault .unwrittenByte
  else .next (s.respond .busError)

/-- A host write of `v` to `LMEM_DATA` (20_memory.md R62, R64). -/
def portWrite (v : Word) (s : State) : Result :=
  if s.portInLmem then
    .next (((s.store s.lmemAddr.toNat [v.extractLsb' 0 8]).advancePort).respond .written)
  else .next (s.respond .busError)

/-- A host read of a register. -/
def hostRead (r : Reg) (s : State) : Result :=
  match regValue r s with
  | some v => .next (s.respond (.data v))
  | none => portRead s

/-- A host write of `v` to `CTRL` (10_state.md R23): bit 1 resets and nothing of `v` is kept, else bit 0
is the new `IRQ_EN`. -/
def writeCtrl (v : Word) (s : State) : State :=
  if v.getLsbD 1 then softReset s else { s with irqEn := v.getLsbD 0 }

/-- A host write of `v` to a register (10_state.md R23, R24, R30 to R36, R38, R40, R48). -/
def hostWrite (r : Reg) (v : Word) (s : State) : Result :=
  match r with
  | .id | .result | .crcResult | .memSize => .next (s.respond .written)
  | .ctrl => .next ((writeCtrl v s).respond .written)
  | .status => .next ((acknowledge v s).respond .written)
  | .cmd => .next ((s.accept v).respond .written)
  | .src => .next (State.respond .written { s with src := v })
  | .dst => .next (State.respond .written { s with dst := v })
  | .len => .next (State.respond .written { s with len := v })
  | .width => .next (State.respond .written { s with width := v })
  | .height => .next (State.respond .written { s with height := v })
  | .arg => .next (State.respond .written { s with arg := v })
  | .crcState => .next (State.respond .written { s with crcState := v })
  | .lmemAddr => .next (State.respond .written { s with lmemAddr := v })
  | .lmemData => portWrite v s

/-- A host access that is not held: a bus error, a read or a write. -/
def hostAccess (a : Access) (s : State) : Result :=
  match accessTarget a with
  | none => .next (s.respond .busError)
  | some r =>
    match a.kind with
    | .read => hostRead r s
    | .write v => hostWrite r v s

/-- The registers whose accesses are never held (40_control.md R115). -/
def neverHeld (r : Reg) : Bool := r == .id || r == .status || r == .memSize

/-- An access that waits while `BUSY` = 1 (40_control.md R115). -/
def holdable (a : Access) : Bool :=
  match accessTarget a with
  | none => false
  | some r => !neverHeld r

end Sys2Proof.Machine
end

