-- ==== Sys2Proof/Machine/Agents.lean ====
section
/-! DEFINITION. The steps of the two agents (40_control.md R109 to R116), and whose turn it is (log 4). -/

namespace Sys2Proof.Machine

/-- The engine step on the latched command (40_control.md R111, R116): decode, run, record a fault if
there is one, complete. -/
def engineStep (s : State) : Result :=
  match decode s.op.word with
  | .error _ => .next (raiseFault none .badCmd s).complete
  | .ok i => onNext State.complete (exec i s)

/-- The engine's turn; it has no step while `BUSY` = 0 (40_control.md R111). -/
def engineTurn (s : State) : Result := if s.status.busy then engineStep s else .next s

/-- The host's turn (40_control.md R109, R115): its next access waits if it is held, and completes if
not. -/
def hostTurn (s : State) : Result :=
  match s.hostQueue with
  | [] => .next s
  | a :: rest =>
    if s.status.busy && holdable a then .next { s with held := true }
    else hostAccess a { s with hostQueue := rest, held := false }

/-- Whose turn is next, and the turns after it. With nothing scheduled a latched command is run first,
so every accepted command completes (40_control.md R112). -/
def nextTurn (s : State) : Turn × List Turn :=
  match s.schedule with
  | t :: rest => (t, rest)
  | [] => (if s.status.busy then .engine else .host, [])

/-- One turn. -/
def takeTurn (t : Turn) (s : State) : Result :=
  match t with
  | .host => hostTurn s
  | .engine => engineTurn s
  | .hwReset => .next (hardwareReset s)

/-- The command word `w` is latched with the present operand registers, and the engine's turn is next. -/
def State.latchNext (w : Word) (s : State) : State :=
  { s.accept w with schedule := .engine :: s.schedule }

end Sys2Proof.Machine
end

