-- ==== Sys2Proof/Machine/Step.lean ====
section
/-! DEFINITION. One step of the machine: the next turn of its agents. -/

namespace Sys2Proof.Machine

/-- `s` with the opcode-table word `w` accepted as its command (40_control.md R110), so that the very next
step runs it. BPX fetches nothing; the latch is where `step` finds its next instruction (log 10). -/
def State.withFetchWord (s : State) (nbits w : Nat) : State :=
  s.latchNext (BitVec.ofNat 32 (w % 2 ^ nbits))

/-- One step (40_control.md R109): the agent whose turn it is moves. -/
def step (s : State) : Host.Outcome State Fault Refusal :=
  takeTurn (nextTurn s).1 { s with schedule := (nextTurn s).2 }

end Sys2Proof.Machine
end

