-- ==== Sys2Proof/Machine/HostProgram.lean ====
section
/-! DEFINITION. The host programs of 30_encoding.md R98 and R99 as the accesses they stand for. Control
flow is the host's (R98): a loop is given by how many times it ran. -/

namespace Sys2Proof.Machine.HostProgram

/-- `WR <REG>, <value>` (R98). -/
def wr (r : Reg) (v : Word) : List Access := [⟨regOffset r, 32, .write v⟩]

/-- `RD <REG>` (R98). -/
def rd (r : Reg) : List Access := [⟨regOffset r, 32, .read⟩]

/-- `CMD <MNEMONIC>` (R99). -/
def cmd (i : Instr) : List Access := wr .cmd (encode i)

/-- `WAIT` (R99), after `n` reads of `STATUS`. -/
def wait (n : Nat) : List Access := (List.replicate n (rd .status)).flatten

/-- `RUN <MNEMONIC>` (R99). -/
def run (i : Instr) (n : Nat) : List Access := cmd i ++ wait n

/-- `POKE <a>, b0, ..., bk` (R99). -/
def poke (a : Word) (bs : List Byte) : List Access :=
  wr .lmemAddr a ++ bs.flatMap (fun b => wr .lmemData (b.setWidth 32))

/-- `PEEK <a>, <n>` (R99). -/
def peek (a : Word) (n : Nat) : List Access :=
  wr .lmemAddr a ++ (List.replicate n (rd .lmemData)).flatten

/-- `ACK` (R99). -/
def ack : List Access := wr .status 0x00000006#32

/-- `CRC32 <a>, <n>` (R99), its two waits after `j` and `k` reads of `STATUS`. -/
def crc32Of (a n : Word) (j k : Nat) : List Access :=
  run .crcInit j ++ wr .src a ++ wr .len n ++ run .crcUpdate k ++ rd .crcResult

end Sys2Proof.Machine.HostProgram
end

