-- ==== Sys2Proof/Safety.lean ====
section
/-! DEFINITION. The terms claims are stated in: LMEM contents, ranges, the spec's arithmetic written out on
numbers, what a completed access and a recorded fault change, runs of steps, and the invariant. -/

namespace Sys2Proof.Machine

/-! ### LMEM -/

/-- The `n` bytes from address `a` on are `f 0`, `f 1`, and so on. -/
def Memory.Holds (m : Memory) (a n : Nat) (f : Nat → Byte) : Prop :=
  ∀ i, i < n → m.read (a + i) = some (f i)

/-- Every byte outside the `n` bytes from address `a` on reads in `t` as it does in `m`. -/
def Memory.SameOutside (m t : Memory) (a n : Nat) : Prop :=
  ∀ x, ¬(a ≤ x ∧ x < a + n) → t.read x = m.read x

/-- Every byte reads in `t` as it does in `m`. -/
def Memory.Same (m t : Memory) : Prop := ∀ x, t.read x = m.read x

/-- `in_lmem(a, n)` (20_memory.md R73). -/
abbrev InLmem (size a n : Nat) : Prop := n = 0 ∨ a + n ≤ size

/-- `overlap(a, n, b, m)` (20_memory.md R74). -/
abbrev Overlap (a n b m : Nat) : Prop := 0 < n ∧ 0 < m ∧ a < b + m ∧ b < a + n

/-! ### The spec's arithmetic on numbers -/

/-- Slice `k` of a byte as a base-4 digit, most significant first (43_quantizer.md R170). -/
def sliceDigit (b : Byte) (k : Nat) : Nat := b.toNat / 4 ^ (3 - k) % 4

/-- The decision thresholds of 43_quantizer.md R172. -/
def levelOf (c : Byte) : Nat :=
  if c.toNat ≤ 42 then 0 else if c.toNat ≤ 127 then 1 else if c.toNat ≤ 212 then 2 else 3

/-- Byte `i` of an `n`-byte sequence, 0 past its end (44_pixel_pack.md R190). -/
def padded (n : Nat) (f : Nat → Byte) (i : Nat) : Byte := if i < n then f i else 0#8

/-- Channel `k` of the pixel array of an `n`-byte frame (44_pixel_pack.md R191): 85 times a slice of the
frame byte that carries it. -/
def packedChannel (n : Nat) (f : Nat → Byte) (k : Nat) : Byte :=
  BitVec.ofNat 8 (85 * sliceDigit (padded n f (3 * (k / 12) + k % 12 / 4)) (k % 4))

/-- Byte `i` of the bytes of a pixel array (44_pixel_pack.md R196): the levels of four channels as base-4
digits. -/
def unpackedByte (n : Nat) (f : Nat → Byte) (i : Nat) : Byte :=
  let level := fun k => levelOf (padded (3 * n) f k)
  BitVec.ofNat 8
    (64 * level (4 * i) + 16 * level (4 * i + 1) + 4 * level (4 * i + 2) + level (4 * i + 3))

/-- `s` is `csqrt(n)` (44_pixel_pack.md R194): the least number whose square is at least `n`. -/
def IsCsqrt (n s : Nat) : Prop := n ≤ s * s ∧ ∀ t, n ≤ t * t → s ≤ t

/-- The first `n` bytes of `f`. -/
def bytesOf (n : Nat) (f : Nat → Byte) : List Byte := (List.range n).map f

/-- The declared length of a header (42_frame.md R151): bytes 4 to 6, byte 7 left out. -/
def declared (h : Nat → Byte) : Nat :=
  (h 4).toNat + 2 ^ 8 * (h 5).toNat + 2 ^ 16 * (h 6).toNat

/-- Byte `k` of the frame of the `n`-byte payload `f` (42_frame.md R150), for `k < n + 8`. -/
def frameByte (n : Nat) (f : Nat → Byte) (k : Nat) : Byte :=
  if k < 4 then
    (crc32 (le32 (BitVec.ofNat 32 n) ++ bytesOf n f)).extractLsb' (8 * k) 8
  else if k < 8 then BitVec.ofNat 8 (n / 2 ^ (8 * (k - 4)))
  else f (k - 8)

/-! ### Steps -/

/-- The host's turn comes next, and `a` is the access it makes, then `rest`. -/
def State.HostMakes (s : State) (a : Access) (rest : List Access) : Prop :=
  (nextTurn s).1 = .host ∧ s.hostQueue = a :: rest

/-- `s` after a turn in which the host's access completed with response `r` and changed nothing of BPX. -/
def State.accessDone (rest : List Access) (r : Response) (s : State) : State :=
  { s with
    schedule := (nextTurn s).2
    hostQueue := rest
    held := false
    responses := r :: s.responses }

/-- `s` after the fault `code` of command `i` is recorded (60_exceptions.md R248), before completion. -/
def State.faultRecorded (i : Instr) (code : Byte) (s : State) : State :=
  { s with
    status :=
      { s.status with
        err := true
        errCode := code
        errOp := s.op.word.extractLsb' 0 8
        integOk := if i = .frameCheck then false else s.status.integOk } }

/-- `n` steps, stopping at the first fault or refusal. -/
def steps : Nat → State → Result
  | 0, s => .next s
  | n + 1, s =>
    match step s with
    | .next t => steps n t
    | .fault r => .fault r
    | .refused r => .refused r

/-- The step is a reset: a hardware reset, or a host write of `CTRL` with bit 1 set. -/
def State.Resets (s : State) : Prop :=
  (nextTurn s).1 = .hwReset ∨
    ∃ v rest, s.HostMakes ⟨0x04, 32, .write v⟩ rest ∧ v.getLsbD 1 = true

/-- The six operand registers take the given values. -/
def State.setOperands (a b c d e f : Word) (s : State) : State :=
  { s with src := a, dst := b, len := c, width := d, height := e, arg := f }

/-- A command's latched operands, as numbers; the latch's word and `ARG` stay. -/
def State.withLatch (src dst len width height : Nat) (s : State) : State :=
  { s with
    op :=
      { s.op with
        src := toWord src
        dst := toWord dst
        len := toWord len
        width := toWord width
        height := toWord height } }

/-- What is left of a state when the latch of an idle BPX is not looked at (10_state.md R43). -/
def State.forgetIdleLatch (s : State) : State :=
  if s.status.busy then s else { s with op := Latch.empty }

/-! ### The invariant -/

/-- Which commands raise each fault (60_exceptions.md R241): `code` is an `ERRCODE`, `op` the `ERROP`
beside it. -/
def RaisedBy (code op : Byte) : Prop :=
  code = 0x01#8 ∨
  (code = 0x02#8 ∧ op ∈ [0x02#8, 0x40#8, 0x41#8, 0x20#8, 0x21#8, 0x22#8, 0x30#8, 0x31#8]) ∨
  (code = 0x03#8 ∧ op ∈ [0x40#8, 0x20#8, 0x21#8, 0x22#8, 0x30#8, 0x31#8]) ∨
  (code = 0x04#8 ∧ op = 0x40#8) ∨
  (code = 0x05#8 ∧ op = 0x41#8)

/-- What every state of a run satisfies. -/
structure State.Inv (s : State) : Prop where
  /-- LMEM keeps its canonical form. -/
  lmem_wf : s.lmem.wf
  /-- Every written byte lies in LMEM (20_memory.md R60). -/
  lmem_in : ∀ c ∈ s.lmem, c.1 < s.memSize.toNat
  /-- `LMEM_SIZE` is a size the spec allows (00_scope.md R7). -/
  size_pos : 1 ≤ s.memSize.toNat
  size_le : s.memSize.toNat ≤ Config.maxLmemSize
  /-- `DONE` is 0 from accept until completion (10_state.md R26). -/
  busy_not_done : s.status.busy = true → s.status.done = false
  /-- `ERRCODE` and `ERROP` read 0 while `ERR` is 0 (10_state.md R29). -/
  no_err : s.status.err = false → s.status.errCode = 0#8 ∧ s.status.errOp = 0#8
  /-- A recorded fault is one of 60_exceptions.md R241. -/
  err_known : s.status.err = true → RaisedBy s.status.errCode s.status.errOp
  /-- Only the host's next access can be held, only while a command runs, and never one that
  40_control.md R115 excepts. -/
  held_busy : s.held = true →
    s.status.busy = true ∧ ∃ a rest, s.hostQueue = a :: rest ∧ holdable a = true

end Sys2Proof.Machine
end

