-- ==== Sys2Proof/Certificates/Slice0/Obligations.lean ====
section
/-! DEFINITION. The statements for the provers. -/

open Sys2Proof Sys2Proof.Machine

/-! ### Encoding -/

/-- 30_encoding.md R94: each of the thirteen words, written out, is the command the table gives it. -/
def Obligations.CommandWordsDecode : Prop :=
  decode 0x00000000#32 = .ok .nop ∧ decode 0x00000001#32 = .ok .crcInit ∧
  decode 0x00000002#32 = .ok .crcUpdate ∧ decode 0x00000003#32 = .ok .crcByte ∧
  decode 0x00000040#32 = .ok .frameBuild ∧ decode 0x00000041#32 = .ok .frameCheck ∧
  decode 0x00000010#32 = .ok .quant ∧ decode 0x00000011#32 = .ok .dequant ∧
  decode 0x00000020#32 = .ok .pack ∧ decode 0x00000021#32 = .ok .canvas ∧
  decode 0x00000022#32 = .ok .unpack ∧ decode 0x00000030#32 = .ok .upscale2x ∧
  decode 0x00000031#32 = .ok .downscale2x

/-- 30_encoding.md R94, R95: a word decodes to a command exactly when it is the word that encodes it,
so decoding an encoded command gives it back and no second word means the same command. -/
def Obligations.DecodeInvertsEncode : Prop :=
  ∀ (w : Word) (i : Instr), decode w = .ok i ↔ w = encode i

/-- 30_encoding.md R95, R96: a word is rejected exactly when bits 31:8 are not all 0 or bits 7:0 are none
of the thirteen opcodes; so the well-formed words are the accepted ones. -/
def Obligations.IllegalWordsRejected : Prop :=
  ∀ w : Word,
    ((∃ e, decode w = .error e) ↔
      (w.toNat / 256 ≠ 0 ∨
        w.toNat % 256 ∉
          [0x00, 0x01, 0x02, 0x03, 0x40, 0x41, 0x10, 0x11, 0x20, 0x21, 0x22, 0x30, 0x31])) ∧
    (wordWf w = true ↔ ∃ i, decode w = .ok i)

/-! ### The agents and their steps -/

/-- 40_control.md R111, R116: the engine's turn on a latched command runs the decoded command and then
completes it. The same holds of a word placed by `withFetchWord`. Whose turn it is: log 4. -/
def Obligations.StepRunsDecodedCommand : Prop :=
  (∀ (s : State) (i : Instr), (nextTurn s).1 = .engine → s.status.busy = true →
      decode s.op.word = .ok i →
      step s = onNext
        (fun t => { t with status := { t.status with busy := false, done := true }, held := false })
        (exec i { s with schedule := (nextTurn s).2 })) ∧
  (∀ (s : State) (i : Instr),
      step (s.withFetchWord 32 (encode i).toNat) = onNext
        (fun t => { t with status := { t.status with busy := false, done := true }, held := false })
        (exec i
          { s with
            status := { s.status with busy := true, done := false }
            op := ⟨encode i, s.src, s.dst, s.len, s.width, s.height, s.arg⟩ }))

/-- 40_control.md R110: a host write of `w` to `CMD` while `BUSY` = 0 latches the word and the six operand
registers, sets `BUSY`, clears `DONE`, and changes nothing else; the word is not checked. -/
def Obligations.CmdWriteAccepts : Prop :=
  ∀ (s : State) (rest : List Access) (w : Word),
    s.HostMakes ⟨0x0C, 32, .write w⟩ rest → s.status.busy = false →
    step s = .next
      { s.accessDone rest .written with
        op := ⟨w, s.src, s.dst, s.len, s.width, s.height, s.arg⟩
        status := { s.status with busy := true, done := false } }

/-- 40_control.md R111, 10_state.md R44: the engine's turn on a latched command, when it ends, ends with
`BUSY` = 0 and `DONE` = 1, so `IRQ` is `IRQ_EN`, and `ERR`, `ERRCODE`, `ERROP` either as they were or naming
a fault of this command; with `BUSY` = 0 the engine has no step. -/
def Obligations.EngineStepCompletes : Prop :=
  (∀ s t : State, (nextTurn s).1 = .engine → s.status.busy = true → step s = .next t →
    t.status.busy = false ∧ t.status.done = true ∧ t.irq = s.irqEn ∧
    ((t.status.err = s.status.err ∧ t.status.errCode = s.status.errCode ∧
        t.status.errOp = s.status.errOp) ∨
      (t.status.err = true ∧ RaisedBy t.status.errCode t.status.errOp ∧
        t.status.errOp = s.op.word.extractLsb' 0 8))) ∧
  (∀ s : State, (nextTurn s).1 = .engine → s.status.busy = false →
    step s = .next { s with schedule := (nextTurn s).2 })

/-- 70_reset_and_hazards.md R276: an idle BPX whose host makes no access stays as it is. -/
def Obligations.IdleMachineWaits : Prop :=
  ∀ s : State, s.status.busy = false → s.hostQueue = [] → s.schedule = [] → step s = .next s

/-- 40_control.md R112: a latched command completes after finitely many steps, whatever turns are
scheduled before, unless a hardware reset is among them or a byte without a value stops the model
(20_memory.md R82, log 2). That the schedule is a finite list, and the engine moves when it is used up, is
the model's choice (log 4). -/
def Obligations.EveryCommandCompletes : Prop :=
  ∀ s : State, s.status.busy = true → Turn.hwReset ∉ s.schedule →
    ∃ k, k ≤ s.schedule.length + 1 ∧
      ((∃ t, steps k s = .next t ∧ t.status.busy = false ∧ t.status.done = true) ∨
        steps k s = .fault .unwrittenByte)

/-- 40_control.md R115: while `BUSY` = 1 an access to any register but `ID`, `STATUS` and `MEMSIZE` stays
uncompleted, and has no effect. -/
def Obligations.BusyHoldsAccess : Prop :=
  ∀ (s : State) (off : Nat) (k : AccessKind) (rest : List Access),
    s.HostMakes ⟨off, 32, k⟩ rest → s.status.busy = true → off % 4 = 0 → off < 0x40 →
    off ≠ 0x00 → off ≠ 0x08 → off ≠ 0x3C →
    step s = .next { s with schedule := (nextTurn s).2, held := true }

/-- 40_control.md R115, 70_reset_and_hazards.md R279: reads of `ID`, `STATUS` and `MEMSIZE` complete at
once, also while `BUSY` = 1, and change nothing (`STATUS` laid out as in 10_state.md R24); so do writes of
`ID` and `MEMSIZE` (R48). -/
def Obligations.ExceptedAccessesComplete : Prop :=
  ∀ (s : State) (rest : List Access),
    (s.HostMakes ⟨0x00, 32, .read⟩ rest →
      step s = .next (s.accessDone rest (.data 0x42504E47#32))) ∧
    (s.HostMakes ⟨0x08, 32, .read⟩ rest →
      step s = .next (s.accessDone rest (.data (BitVec.ofNat 32
        (s.status.busy.toNat + 2 * s.status.done.toNat + 4 * s.status.err.toNat
          + 8 * s.status.integOk.toNat + 2 ^ 8 * s.status.errCode.toNat
          + 2 ^ 16 * s.status.errOp.toNat))))) ∧
    (s.HostMakes ⟨0x3C, 32, .read⟩ rest → step s = .next (s.accessDone rest (.data s.memSize))) ∧
    (∀ v, s.HostMakes ⟨0x00, 32, .write v⟩ rest → step s = .next (s.accessDone rest .written)) ∧
    (∀ v, s.HostMakes ⟨0x3C, 32, .write v⟩ rest → step s = .next (s.accessDone rest .written))

/-- 40_control.md R110, 70_reset_and_hazards.md R278: a running command uses the latched operands only.
Whatever the six operand registers hold, the command does the same and leaves them so. -/
def Obligations.CommandsUseLatchedOperands : Prop :=
  ∀ (i : Instr) (s : State) (a b c d e f : Word),
    exec i (s.setOperands a b c d e f) = onNext (State.setOperands a b c d e f) (exec i s)

/-- 10_state.md R43: while `BUSY` = 0 the content of the latch is irrelevant: two states that differ only
there take the same step, but for the latch of an idle BPX. -/
def Obligations.IdleLatchUnobservable : Prop :=
  ∀ (s : State) (o : Latch), s.status.busy = false →
    onNext State.forgetIdleLatch (step { s with op := o }) = onNext State.forgetIdleLatch (step s)

/-! ### Registers -/

/-- 10_state.md R21 to R24, R30 to R40, R42: what an idle BPX answers to a read at each offset but that of
`LMEM_DATA`, and that such a read has no side effect (20_memory.md R72). -/
def Obligations.RegisterReads : Prop :=
  ∀ (s : State) (rest : List Access) (off : Nat) (v : Word),
    s.HostMakes ⟨off, 32, .read⟩ rest → s.status.busy = false →
    (off, v) ∈
      [(0x00, 0x42504E47#32),
       (0x04, BitVec.ofNat 32 s.irqEn.toNat),
       (0x08, BitVec.ofNat 32
          (2 * s.status.done.toNat + 4 * s.status.err.toNat + 8 * s.status.integOk.toNat
            + 2 ^ 8 * s.status.errCode.toNat + 2 ^ 16 * s.status.errOp.toNat)),
       (0x0C, 0x00000000#32), (0x10, s.src), (0x14, s.dst), (0x18, s.len), (0x1C, s.width),
       (0x20, s.height), (0x24, s.arg), (0x28, s.result), (0x2C, s.crcState),
       (0x30, s.crcState ^^^ 0xFFFFFFFF#32), (0x34, s.lmemAddr), (0x3C, s.memSize)] →
    step s = .next (s.accessDone rest (.data v))

/-- 10_state.md R31 to R36, R38, R40, R48: a host write to a stored register puts the written value there
and changes nothing else; one to `ID`, `RESULT`, `CRC_RESULT` or `MEMSIZE` changes nothing. -/
def Obligations.RegisterWrites : Prop :=
  ∀ (s t : State) (rest : List Access) (off : Nat) (v : Word),
    s.HostMakes ⟨off, 32, .write v⟩ rest → s.status.busy = false →
    (off, t) ∈
      [(0x10, { s.accessDone rest .written with src := v }),
       (0x14, { s.accessDone rest .written with dst := v }),
       (0x18, { s.accessDone rest .written with len := v }),
       (0x1C, { s.accessDone rest .written with width := v }),
       (0x20, { s.accessDone rest .written with height := v }),
       (0x24, { s.accessDone rest .written with arg := v }),
       (0x2C, { s.accessDone rest .written with crcState := v }),
       (0x34, { s.accessDone rest .written with lmemAddr := v }),
       (0x00, s.accessDone rest .written), (0x28, s.accessDone rest .written),
       (0x30, s.accessDone rest .written), (0x3C, s.accessDone rest .written)] →
    step s = .next t

/-- 10_state.md R24, 60_exceptions.md R249: what a host write to `STATUS` does, `BUSY` or not. -/
def Obligations.StatusWriteClears : Prop :=
  ∀ (s : State) (rest : List Access) (v : Word),
    s.HostMakes ⟨0x08, 32, .write v⟩ rest →
    step s = .next
      { s.accessDone rest .written with
        status :=
          { busy := s.status.busy
            done := if v.getLsbD 1 then false else s.status.done
            err := if v.getLsbD 2 then false else s.status.err
            integOk := s.status.integOk
            errCode := if v.getLsbD 2 then 0x00#8 else s.status.errCode
            errOp := if v.getLsbD 2 then 0x00#8 else s.status.errOp } }

/-- 10_state.md R23, 70_reset_and_hazards.md R273: a host write to `CTRL` with bit 1 = 0 sets `IRQ_EN` to
bit 0 and nothing else; with bit 1 = 1 it resets every register, bit 0 is not kept, and LMEM and `MEMSIZE`
stay as they were. -/
def Obligations.CtrlWrite : Prop :=
  ∀ (s : State) (rest : List Access) (v : Word),
    s.HostMakes ⟨0x04, 32, .write v⟩ rest → s.status.busy = false →
    (v.getLsbD 1 = false →
      step s = .next { s.accessDone rest .written with irqEn := v.getLsbD 0 }) ∧
    (v.getLsbD 1 = true →
      ∃ t, step s = .next t ∧
        t = { s.accessDone rest .written with
              irqEn := false
              status := ⟨false, false, false, false, 0x00#8, 0x00#8⟩
              src := 0#32, dst := 0#32, len := 0#32, width := 0#32, height := 0#32, arg := 0#32
              result := 0#32
              crcState := 0xFFFFFFFF#32
              lmemAddr := 0#32
              op := t.op })

/-- 70_reset_and_hazards.md R271, R275: the hardware reset puts every register at its reset value, from any
state; with no command running it leaves LMEM, and the host's next accesses, as they were. -/
def Obligations.HardwareResetValues : Prop :=
  ∀ s : State, (nextTurn s).1 = .hwReset →
    ∃ t, step s = .next t ∧ t.irqEn = false ∧
      t.status = ⟨false, false, false, false, 0x00#8, 0x00#8⟩ ∧
      t.src = 0#32 ∧ t.dst = 0#32 ∧ t.len = 0#32 ∧ t.width = 0#32 ∧ t.height = 0#32 ∧ t.arg = 0#32 ∧
      t.result = 0#32 ∧ t.crcState = 0xFFFFFFFF#32 ∧ t.crcResult = 0#32 ∧ t.lmemAddr = 0#32 ∧
      t.memSize = s.memSize ∧ t.irq = false ∧ t.held = false ∧
      (s.status.busy = false → t.lmem = s.lmem) ∧ (s.held = false → t.hostQueue = s.hostQueue)

/-- 70_reset_and_hazards.md R272: a hardware reset during a command changes no LMEM byte outside that
command's destination range, and none at all if it has none; a byte of that range that is in LMEM then
holds some value, of which nothing is said (log 5). -/
def Obligations.ResetAbandonsCommand : Prop :=
  ∀ s : State, (nextTurn s).1 = .hwReset → s.status.busy = true →
    ∃ t, step s = .next t ∧
      (∀ i r, decode s.op.word = .ok i → dstRange i s.op = some r →
        s.lmem.SameOutside t.lmem r.base r.size ∧
        ∀ x, r.base ≤ x → x < r.base + r.size → x < s.memSize.toNat → ∃ b, t.lmem.read x = some b) ∧
      (∀ i, decode s.op.word = .ok i → dstRange i s.op = none → t.lmem = s.lmem) ∧
      (∀ e, decode s.op.word = .error e → t.lmem = s.lmem)

/-- 20_memory.md R62: a host write to `LMEM_DATA` stores bits 7:0 and advances `LMEM_ADDR`. -/
def Obligations.PortWrite : Prop :=
  ∀ (s : State) (rest : List Access) (v : Word),
    s.HostMakes ⟨0x38, 32, .write v⟩ rest → s.status.busy = false →
    s.lmemAddr.toNat < s.memSize.toNat →
    ∃ t, step s = .next t ∧
      t = { s.accessDone rest .written with
            lmem := t.lmem, lmemAddr := BitVec.ofNat 32 ((s.lmemAddr.toNat + 1) % 2 ^ 32) } ∧
      t.lmem.read s.lmemAddr.toNat = some (BitVec.ofNat 8 (v.toNat % 256)) ∧
      s.lmem.SameOutside t.lmem s.lmemAddr.toNat 1

/-- 20_memory.md R63: a host read of `LMEM_DATA` returns the byte, zero-extended, and advances
`LMEM_ADDR`. -/
def Obligations.PortRead : Prop :=
  ∀ (s : State) (rest : List Access) (b : Byte),
    s.HostMakes ⟨0x38, 32, .read⟩ rest → s.status.busy = false →
    s.lmemAddr.toNat < s.memSize.toNat → s.lmem.read s.lmemAddr.toNat = some b →
    step s = .next
      { s.accessDone rest (.data (BitVec.ofNat 32 b.toNat)) with
        lmemAddr := BitVec.ofNat 32 ((s.lmemAddr.toNat + 1) % 2 ^ 32) }

/-- 20_memory.md R64, 60_exceptions.md R251: an access to `LMEM_DATA` at an address of `LMEM_SIZE` or more
ends in a bus error and changes nothing: no LMEM byte, no advance, no data. That this is a next state, in
which the host goes on with its queue, is the model's choice (log 7). -/
def Obligations.PortBusError : Prop :=
  ∀ (s : State) (rest : List Access) (k : AccessKind),
    s.HostMakes ⟨0x38, 32, k⟩ rest → s.status.busy = false →
    s.memSize.toNat ≤ s.lmemAddr.toNat → step s = .next (s.accessDone rest .busError)

/-- 20_memory.md R69, R70, 60_exceptions.md R251: an access of another width, at an offset that is no
multiple of 4, or at 0x40 or above, ends in a bus error and changes no BPX state, also while `BUSY` = 1
(40_control.md R115). That this is a next state, in which the host goes on with its queue, is the model's
choice (log 7), and so is that every offset of 0x40 or more counts as inside the window (log 8). -/
def Obligations.IllFormedAccessBusError : Prop :=
  ∀ (s : State) (a : Access) (rest : List Access),
    s.HostMakes a rest → a.width ≠ 32 ∨ a.offset % 4 ≠ 0 ∨ 0x40 ≤ a.offset →
    step s = .next (s.accessDone rest .busError)

/-- 10_state.md R44: `IRQ` is 1 exactly when it is enabled and `DONE` or `ERR` is 1; it is 0 after reset. -/
def Obligations.IrqLevel : Prop :=
  (∀ s : State, s.irq = true ↔ s.irqEn = true ∧ (s.status.done = true ∨ s.status.err = true)) ∧
  (∀ size : Word, (State.resetOf size).irq = false)

/-- 60_exceptions.md R252, 10_state.md R44: `IRQ` falls only by a hardware reset or by a host write to
`STATUS`, `CTRL` or `CMD`. -/
def Obligations.IrqFallsOnlyByHostOrReset : Prop :=
  ∀ s t : State, step s = .next t → s.irq = true → t.irq = false →
    (nextTurn s).1 = .hwReset ∨
      ∃ off v rest, s.HostMakes ⟨off, 32, .write v⟩ rest ∧ off ∈ [0x04, 0x08, 0x0C]

/-- 10_state.md R24, R27: `ERR` is sticky: it falls only by a host write of 1 to `STATUS` bit 2, or by a
reset (70_reset_and_hazards.md R271, R273). -/
def Obligations.ErrIsSticky : Prop :=
  ∀ s t : State, step s = .next t → s.status.err = true → t.status.err = false →
    s.Resets ∨ ∃ v rest, s.HostMakes ⟨0x08, 32, .write v⟩ rest ∧ v.getLsbD 2 = true

/-- 10_state.md R28: only FRAME_CHECK and reset write `INTEG_OK`. -/
def Obligations.IntegOkWriters : Prop :=
  ∀ s t : State, step s = .next t → t.status.integOk ≠ s.status.integOk →
    s.Resets ∨
      ((nextTurn s).1 = .engine ∧ s.status.busy = true ∧ decode s.op.word = .ok .frameCheck)

/-! ### Faults -/

/-- 30_encoding.md R96, 60_exceptions.md R242: a word that is no command faults with `BADCMD`, records its
low 8 bits, completes, and has no other effect. -/
def Obligations.BadCommandFault : Prop :=
  ∀ (s : State) (e : DecodeError), (nextTurn s).1 = .engine → s.status.busy = true →
    decode s.op.word = .error e →
    step s = .next
      { s with
        schedule := (nextTurn s).2
        held := false
        status :=
          { s.status with
            busy := false
            done := true
            err := true
            errCode := 0x01#8
            errOp := s.op.word.extractLsb' 0 8 } }

/-- 40_control.md R113: no command writes `SRC`, `DST`, `LEN`, `WIDTH`, `HEIGHT`, `ARG`, `LMEM_ADDR` or
`CTRL`, nor anything else but `STATUS`, `RESULT`, `CRC_STATE` and LMEM; nor does the engine's turn, which
also uses up the turn and ends the hold of a host access. -/
def Obligations.CommandsWriteNoOperand : Prop :=
  (∀ (i : Instr) (s t : State), exec i s = .next t →
    t = { s with
          status := t.status, result := t.result, crcState := t.crcState, lmem := t.lmem }) ∧
  (∀ s t : State, (nextTurn s).1 = .engine → s.status.busy = true → step s = .next t →
    t = { s with
          status := t.status, result := t.result, crcState := t.crcState, lmem := t.lmem
          schedule := (nextTurn s).2, held := false })

/-- 60_exceptions.md R240, R241, R248: a command either records a fault that R241 lets it raise and changes
nothing but `STATUS`, or leaves `ERR`, `ERRCODE` and `ERROP` as they were. -/
def Obligations.FaultsWriteNothingElse : Prop :=
  ∀ (i : Instr) (s t : State), exec i s = .next t →
    (∃ code, RaisedBy code (opcode i) ∧ t = s.faultRecorded i code) ∨
      (t.status = { s.status with integOk := t.status.integOk } ∧
        (i ≠ .frameCheck → t.status.integOk = s.status.integOk))

/-- 30_encoding.md R97, 00_scope.md R11: a command changes LMEM only inside its destination range, and
not at all if it has none. -/
def Obligations.StoresOnlyInDestination : Prop :=
  ∀ (i : Instr) (s t : State), exec i s = .next t →
    (dstRange i s.op = none → s.lmem.Same t.lmem) ∧
    (∀ r, dstRange i s.op = some r → s.lmem.SameOutside t.lmem r.base r.size)

/-- 30_encoding.md R97: the source and destination ranges of the commands that have them. -/
def Obligations.CommandRanges : Prop :=
  ∀ op : Latch,
    let n := op.len.toNat
    let W := op.width.toNat
    let H := op.height.toNat
    let src := op.src.toNat
    let dst := op.dst.toNat
    srcRange .crcUpdate op = some ⟨src, n⟩ ∧ dstRange .crcUpdate op = none ∧
    srcRange .frameBuild op = some ⟨src, n⟩ ∧ dstRange .frameBuild op = some ⟨dst, n + 8⟩ ∧
    srcRange .frameCheck op = some ⟨src, n⟩ ∧ dstRange .frameCheck op = none ∧
    srcRange .pack op = some ⟨src, n⟩ ∧ dstRange .pack op = some ⟨dst, 12 * ((n + 2) / 3)⟩ ∧
    srcRange .canvas op = some ⟨src, 3 * n⟩ ∧
    (∀ side, IsCsqrt n side → dstRange .canvas op = some ⟨dst, 3 * side * side⟩) ∧
    srcRange .unpack op = some ⟨src, 3 * n⟩ ∧ dstRange .unpack op = some ⟨dst, 3 * ((n + 3) / 4)⟩ ∧
    srcRange .upscale2x op = some ⟨src, 3 * W * H⟩ ∧
    dstRange .upscale2x op = some ⟨dst, 12 * W * H⟩ ∧
    srcRange .downscale2x op = some ⟨src, 3 * W * H⟩ ∧
    dstRange .downscale2x op = some ⟨dst, 3 * (W / 2) * (H / 2)⟩ ∧
    (∀ i, i ∈ [Instr.nop, .crcInit, .crcByte, .quant, .dequant] →
      srcRange i op = none ∧ dstRange i op = none)

/-- 60_exceptions.md R243, R244, R245, R247: the first check that fails gives the fault. FRAME_BUILD of
2^24 bytes or more: `LENCEIL`. Else a source range not in LMEM: `RANGE`. Else a destination range not in
LMEM: `RANGE`. Else overlapping ranges: `OVERLAP`. -/
def Obligations.CheckPriority : Prop :=
  (∀ s : State, 2 ^ 24 ≤ s.op.len.toNat →
    exec .frameBuild s = .next (s.faultRecorded .frameBuild 0x04#8)) ∧
  (∀ (i : Instr) (s : State) (q : Range), (i = .frameBuild → s.op.len.toNat < 2 ^ 24) →
    srcRange i s.op = some q →
    (¬ InLmem s.memSize.toNat q.base q.size → exec i s = .next (s.faultRecorded i 0x02#8)) ∧
    (∀ r, InLmem s.memSize.toNat q.base q.size → dstRange i s.op = some r →
      (¬ InLmem s.memSize.toNat r.base r.size → exec i s = .next (s.faultRecorded i 0x02#8)) ∧
      (InLmem s.memSize.toNat r.base r.size → Overlap q.base q.size r.base r.size →
        exec i s = .next (s.faultRecorded i 0x03#8))))

/-- 60_exceptions.md R246: FRAME_CHECK of a buffer in LMEM faults with `MALFORMED` when it is shorter than
8 bytes, and when the declared length exceeds the bytes after the header. `INTEG_OK` becomes 0 (R240). -/
def Obligations.MalformedFault : Prop :=
  ∀ s : State, InLmem s.memSize.toNat s.op.src.toNat s.op.len.toNat →
    (s.op.len.toNat < 8 → exec .frameCheck s = .next (s.faultRecorded .frameCheck 0x05#8)) ∧
    (∀ h : Nat → Byte, 8 ≤ s.op.len.toNat → s.lmem.Holds s.op.src.toNat 8 h →
      s.op.len.toNat - 8 < declared h →
      exec .frameCheck s = .next (s.faultRecorded .frameCheck 0x05#8))

/-- Log 2 (recommended by 20_memory.md R82): a command never stops while every byte of its source range has
a value, and none is ever refused; the host port, and a command that reads all of its range, stop at a byte
nothing has written. -/
def Obligations.StopsOnlyAtUnwrittenBytes : Prop :=
  (∀ (i : Instr) (s : State),
    (∀ r, srcRange i s.op = some r → ∀ k, k < r.size → ∃ b, s.lmem.read (r.base + k) = some b) →
    ∃ t, exec i s = .next t) ∧
  (∀ (s : State) (k : Nat), InLmem s.memSize.toNat s.op.src.toNat s.op.len.toNat →
    k < s.op.len.toNat → s.lmem.read (s.op.src.toNat + k) = none →
    exec .crcUpdate s = .fault .unwrittenByte) ∧
  (∀ (s : State) (rest : List Access),
    s.HostMakes ⟨0x38, 32, .read⟩ rest → s.status.busy = false →
    s.lmemAddr.toNat < s.memSize.toNat → s.lmem.read s.lmemAddr.toNat = none →
    step s = .fault .unwrittenByte)

/-! ### Control and the CRC -/

/-- 40_control.md R114: NOP does nothing. -/
def Obligations.NopResult : Prop := ∀ s : State, exec .nop s = .next s

/-- 41_crc.md R132, R134: CRC_INIT sets `CRC_STATE` to 0xFFFFFFFF, after which `CRC_RESULT` reads 0; CRC_BYTE
feeds `ARG[7:0]` to the CRC, whatever `ARG[31:8]` is. -/
def Obligations.CrcInitAndByteResult : Prop :=
  ∀ s : State,
    (∃ t, exec .crcInit s = .next t ∧ t = { s with crcState := 0xFFFFFFFF#32 } ∧
      t.crcResult = 0x00000000#32) ∧
    exec .crcByte s = .next
      { s with crcState := crcStep s.crcState (BitVec.ofNat 8 (s.op.arg.toNat % 256)) }

/-- 41_crc.md R133: CRC_UPDATE feeds the bytes of its range to the CRC, in increasing address order. -/
def Obligations.CrcUpdateResult : Prop :=
  ∀ (s : State) (f : Nat → Byte),
    let n := s.op.len.toNat
    InLmem s.memSize.toNat s.op.src.toNat n → s.lmem.Holds s.op.src.toNat n f →
    exec .crcUpdate s = .next { s with crcState := (bytesOf n f).foldl crcStep s.crcState }

/-- 41_crc.md R131: the CRC of no byte and of the check string; a checksum may be computed in pieces; the
order of the bytes matters; every change of one byte of a sequence, so every change of one bit, changes its
CRC-32. -/
def Obligations.CrcProperties : Prop :=
  crc32 [] = 0x00000000#32 ∧
  crc32 [0x31#8, 0x32#8, 0x33#8, 0x34#8, 0x35#8, 0x36#8, 0x37#8, 0x38#8, 0x39#8] = 0xCBF43926#32 ∧
  (∀ (c : Word) (a b : List Byte), crcUpdate c (a ++ b) = crcUpdate (crcUpdate c a) b) ∧
  crc32 [0x01#8, 0x02#8] = 0xB6CC4292#32 ∧ crc32 [0x02#8, 0x01#8] = 0x04E840EB#32 ∧
  (∀ (l m : List Byte) (x y : Byte), x ≠ y → crc32 (l ++ x :: m) ≠ crc32 (l ++ y :: m))

/-! ### Frames -/

/-- 42_frame.md R150, R152: FRAME_BUILD within its bounds writes the frame of its payload, the CRC register
and `RESULT`, and nothing else. -/
def Obligations.FrameBuildResult : Prop :=
  ∀ (s : State) (f : Nat → Byte),
    let n := s.op.len.toNat
    let src := s.op.src.toNat
    let dst := s.op.dst.toNat
    n < 2 ^ 24 → InLmem s.memSize.toNat src n → InLmem s.memSize.toNat dst (n + 8) →
    ¬ Overlap src n dst (n + 8) → s.lmem.Holds src n f →
    ∃ t, exec .frameBuild s = .next t ∧
      t = { s with
            lmem := t.lmem
            crcState := crcUpdate 0xFFFFFFFF#32 (le32 s.op.len ++ bytesOf n f)
            result := BitVec.ofNat 32 (n + 8) } ∧
      t.lmem.Holds dst (n + 8) (frameByte n f) ∧ s.lmem.SameOutside t.lmem dst (n + 8)

/-- 42_frame.md R151, R153: FRAME_CHECK of a well-formed buffer sets `RESULT` to the declared length,
`CRC_STATE` to the CRC over the length bytes as stored and the payload, and `INTEG_OK` to whether the stored
checksum matches; it writes no LMEM byte and reads none after the payload. -/
def Obligations.FrameCheckResult : Prop :=
  ∀ (s : State) (h : Nat → Byte),
    let L := s.op.len.toNat
    let src := s.op.src.toNat
    let d := declared h
    let stored := (h 0).toNat + 2 ^ 8 * (h 1).toNat + 2 ^ 16 * (h 2).toNat + 2 ^ 24 * (h 3).toNat
    let c := crcUpdate 0xFFFFFFFF#32 (bytesOf (4 + d) fun i => h (4 + i))
    InLmem s.memSize.toNat src L → 8 ≤ L → d ≤ L - 8 → s.lmem.Holds src (8 + d) h →
    exec .frameCheck s = .next
      { s with
        crcState := c
        result := BitVec.ofNat 32 d
        status := { s.status with integOk := decide ((c ^^^ 0xFFFFFFFF#32).toNat = stored) } }

/-- 42_frame.md R154: the frame FRAME_BUILD writes, with any further bytes after it, passes FRAME_CHECK:
`RESULT` is the payload length, `INTEG_OK` is 1, no fault, and the payload candidate is the payload. -/
def Obligations.FrameRoundTrip : Prop :=
  ∀ (s t u : State) (f : Nat → Byte) (k : Nat),
    let n := s.op.len.toNat
    let src := s.op.src.toNat
    let dst := s.op.dst.toNat
    let buf := u.op.src.toNat
    n < 2 ^ 24 → InLmem s.memSize.toNat src n → InLmem s.memSize.toNat dst (n + 8) →
    ¬ Overlap src n dst (n + 8) → s.lmem.Holds src n f →
    exec .frameBuild s = .next t →
    (∀ i, i < n + 8 → u.lmem.read (buf + i) = t.lmem.read (dst + i)) →
    u.op.len.toNat = n + 8 + k → InLmem u.memSize.toNat buf (n + 8 + k) →
    ∃ v, exec .frameCheck u = .next v ∧
      v = { u with
            crcState := t.crcState
            result := BitVec.ofNat 32 n
            status := { u.status with integOk := true } } ∧
      v.lmem.Holds (buf + 8) n f

/-- 42_frame.md R153, R156, 41_crc.md R130, R131: change one byte, by one bit or by several, of a built frame
that is no declared-length byte (4 to 6): FRAME_CHECK still gives the payload length, without fault, and
`INTEG_OK` is 0. -/
def Obligations.FrameTamperDetected : Prop :=
  ∀ (u : State) (f g : Nat → Byte) (n j : Nat),
    let buf := u.op.src.toNat
    n < 2 ^ 24 → InLmem u.memSize.toNat buf u.op.len.toNat → n + 8 ≤ u.op.len.toNat →
    u.lmem.Holds buf (n + 8) g →
    j < n + 8 → j ≠ 4 → j ≠ 5 → j ≠ 6 → g j ≠ frameByte n f j →
    (∀ i, i < n + 8 → i ≠ j → g i = frameByte n f i) →
    ∃ v, exec .frameCheck u = .next v ∧ v.result = BitVec.ofNat 32 n ∧
      v.status = { u.status with integOk := false }

/-! ### The quantizer -/

/-- 43_quantizer.md R170, R171, R173: QUANT writes 85 times the base-4 digit of `ARG[7:0]` that `ARG[9:8]`
selects, most significant first; other bits of `ARG` do not matter. -/
def Obligations.QuantResult : Prop :=
  ∀ s : State, exec .quant s = .next
    { s with
      result := BitVec.ofNat 32
        (85 * (s.op.arg.toNat % 256 / 4 ^ (3 - s.op.arg.toNat / 256 % 4) % 4)) }

/-- 43_quantizer.md R172, R174: DEQUANT writes the level of `ARG[7:0]` by the thresholds of R172. -/
def Obligations.DequantResult : Prop :=
  ∀ s : State, exec .dequant s = .next
    { s with result := BitVec.ofNat 32 (levelOf (BitVec.ofNat 8 (s.op.arg.toNat % 256))) }

/-- 43_quantizer.md R175, R176: QUANT then DEQUANT of its result gives the slice back, and so does DEQUANT
of a channel at most 42 away. -/
def Obligations.QuantizationStable : Prop :=
  ∀ (s t u : State) (c : Byte),
    let symbol := sliceDigit (BitVec.ofNat 8 (s.op.arg.toNat % 256)) (s.op.arg.toNat / 256 % 4)
    exec .quant s = .next t → u.op.arg.toNat % 256 = c.toNat →
    c.toNat ≤ t.result.toNat + 42 → t.result.toNat ≤ c.toNat + 42 →
    exec .dequant u = .next { u with result := BitVec.ofNat 32 symbol }

/-! ### The pixel-packing unit -/

/-- 44_pixel_pack.md R190 to R192: PACK within its bounds writes the channels of the frame's pixels and the
pixel count, and nothing else. -/
def Obligations.PackResult : Prop :=
  ∀ (s : State) (f : Nat → Byte),
    let L := s.op.len.toNat
    let G := (L + 2) / 3
    let src := s.op.src.toNat
    let dst := s.op.dst.toNat
    InLmem s.memSize.toNat src L → InLmem s.memSize.toNat dst (12 * G) →
    ¬ Overlap src L dst (12 * G) → s.lmem.Holds src L f →
    ∃ t, exec .pack s = .next t ∧
      t = { s with lmem := t.lmem, result := BitVec.ofNat 32 (4 * G) } ∧
      t.lmem.Holds dst (12 * G) (packedChannel L f) ∧ s.lmem.SameOutside t.lmem dst (12 * G)

/-- 44_pixel_pack.md R194, R195: CANVAS within its bounds writes the pixels followed by white to the side of
the canvas, and nothing else. -/
def Obligations.CanvasResult : Prop :=
  ∀ (s : State) (f : Nat → Byte) (side : Nat),
    let P := s.op.len.toNat
    let src := s.op.src.toNat
    let dst := s.op.dst.toNat
    IsCsqrt P side → InLmem s.memSize.toNat src (3 * P) →
    InLmem s.memSize.toNat dst (3 * side * side) → ¬ Overlap src (3 * P) dst (3 * side * side) →
    s.lmem.Holds src (3 * P) f →
    ∃ t, exec .canvas s = .next t ∧
      t = { s with lmem := t.lmem, result := BitVec.ofNat 32 side } ∧
      t.lmem.Holds dst (3 * side * side) (fun k => if k < 3 * P then f k else 0xFF#8) ∧
      s.lmem.SameOutside t.lmem dst (3 * side * side)

/-- 44_pixel_pack.md R196: UNPACK within its bounds writes the bytes of the pixel array and their count, and
nothing else. -/
def Obligations.UnpackResult : Prop :=
  ∀ (s : State) (f : Nat → Byte),
    let N := s.op.len.toNat
    let G := (N + 3) / 4
    let src := s.op.src.toNat
    let dst := s.op.dst.toNat
    InLmem s.memSize.toNat src (3 * N) → InLmem s.memSize.toNat dst (3 * G) →
    ¬ Overlap src (3 * N) dst (3 * G) → s.lmem.Holds src (3 * N) f →
    ∃ t, exec .unpack s = .next t ∧
      t = { s with lmem := t.lmem, result := BitVec.ofNat 32 (3 * G) } ∧
      t.lmem.Holds dst (3 * G) (unpackedByte N f) ∧ s.lmem.SameOutside t.lmem dst (3 * G)

/-- 44_pixel_pack.md R194: `csqrt(n)` is the least number whose square is at least `n`. -/
def Obligations.CsqrtIsLeast : Prop := ∀ n s : Nat, csqrt n = s ↔ IsCsqrt n s

/-- 44_pixel_pack.md R197: UNPACK of the pixel array that PACK wrote gives the frame and its zero pad
bytes. -/
def Obligations.PackUnpackRoundTrip : Prop :=
  ∀ (s t u : State) (f : Nat → Byte),
    let L := s.op.len.toNat
    let G := (L + 2) / 3
    let src := s.op.src.toNat
    let dst := s.op.dst.toNat
    let pix := u.op.src.toNat
    let out := u.op.dst.toNat
    InLmem s.memSize.toNat src L → InLmem s.memSize.toNat dst (12 * G) →
    ¬ Overlap src L dst (12 * G) → s.lmem.Holds src L f → exec .pack s = .next t →
    u.op.len = t.result → (∀ i, i < 12 * G → u.lmem.read (pix + i) = t.lmem.read (dst + i)) →
    InLmem u.memSize.toNat pix (12 * G) → InLmem u.memSize.toNat out (3 * G) →
    ¬ Overlap pix (12 * G) out (3 * G) →
    ∃ v, exec .unpack u = .next v ∧ v.result = BitVec.ofNat 32 (3 * G) ∧
      v.lmem.Holds out (3 * G) (padded L f)

/-- 44_pixel_pack.md R198: UNPACK of `N` pixels, the packed pixels of a frame first and then white, gives the
frame and its zero pad, then FF bytes, then the last group by how many white pixels it has. -/
def Obligations.CanvasReadBack : Prop :=
  ∀ (u : State) (f : Nat → Byte) (L : Nat),
    let G := (L + 2) / 3
    let N := u.op.len.toNat
    let pix := u.op.src.toNat
    let out := u.op.dst.toNat
    4 * G ≤ N → InLmem u.memSize.toNat pix (3 * N) → InLmem u.memSize.toNat out (3 * ((N + 3) / 4)) →
    ¬ Overlap pix (3 * N) out (3 * ((N + 3) / 4)) →
    u.lmem.Holds pix (3 * N) (fun k => if k < 12 * G then packedChannel L f k else 0xFF#8) →
    ∃ v, exec .unpack u = .next v ∧
      v.lmem.Holds out (3 * G) (padded L f) ∧
      v.lmem.Holds (out + 3 * G) (3 * (N / 4) - 3 * G) (fun _ => 0xFF#8) ∧
      (N % 4 = 1 → v.lmem.Holds (out + 3 * (N / 4)) 3 (byteAt [0xFC#8, 0x00#8, 0x00#8])) ∧
      (N % 4 = 2 → v.lmem.Holds (out + 3 * (N / 4)) 3 (byteAt [0xFF#8, 0xF0#8, 0x00#8])) ∧
      (N % 4 = 3 → v.lmem.Holds (out + 3 * (N / 4)) 3 (byteAt [0xFF#8, 0xFF#8, 0xC0#8]))

/-! ### The resampler -/

/-- 45_resampler.md R220, R221: UPSCALE2X within its bounds writes the doubled image and its width, and
nothing else. -/
def Obligations.UpscaleResult : Prop :=
  ∀ (s : State) (f : Nat → Byte),
    let W := s.op.width.toNat
    let H := s.op.height.toNat
    let src := s.op.src.toNat
    let dst := s.op.dst.toNat
    InLmem s.memSize.toNat src (3 * W * H) → InLmem s.memSize.toNat dst (12 * W * H) →
    ¬ Overlap src (3 * W * H) dst (12 * W * H) → s.lmem.Holds src (3 * W * H) f →
    ∃ t, exec .upscale2x s = .next t ∧
      t = { s with lmem := t.lmem, result := BitVec.ofNat 32 (2 * W % 2 ^ 32) } ∧
      (∀ x y ch, x < 2 * W → y < 2 * H → ch < 3 →
        t.lmem.read (dst + 3 * (y * (2 * W) + x) + ch)
          = some (f (3 * (y / 2 * W + x / 2) + ch))) ∧
      s.lmem.SameOutside t.lmem dst (12 * W * H)

/-- 45_resampler.md R222, R223: DOWNSCALE2X within its bounds writes the mean of each 2 by 2 block, rounded
half up, and the new width, and nothing else; it reads no odd last row or column. -/
def Obligations.DownscaleResult : Prop :=
  ∀ (s : State) (I : Nat → Nat → Nat → Byte),
    let W := s.op.width.toNat
    let H := s.op.height.toNat
    let src := s.op.src.toNat
    let dst := s.op.dst.toNat
    InLmem s.memSize.toNat src (3 * W * H) →
    InLmem s.memSize.toNat dst (3 * (W / 2) * (H / 2)) →
    ¬ Overlap src (3 * W * H) dst (3 * (W / 2) * (H / 2)) →
    (∀ x y ch, x < 2 * (W / 2) → y < 2 * (H / 2) → ch < 3 →
      s.lmem.read (src + 3 * (y * W + x) + ch) = some (I x y ch)) →
    ∃ t, exec .downscale2x s = .next t ∧
      t = { s with lmem := t.lmem, result := BitVec.ofNat 32 (W / 2) } ∧
      (∀ x y ch, x < W / 2 → y < H / 2 → ch < 3 →
        t.lmem.read (dst + 3 * (y * (W / 2) + x) + ch)
          = some (BitVec.ofNat 8
              (((I (2 * x) (2 * y) ch).toNat + (I (2 * x + 1) (2 * y) ch).toNat
                + (I (2 * x) (2 * y + 1) ch).toNat + (I (2 * x + 1) (2 * y + 1) ch).toNat + 2) / 4))) ∧
      s.lmem.SameOutside t.lmem dst (3 * (W / 2) * (H / 2))

/-- 45_resampler.md R224: DOWNSCALE2X of the image UPSCALE2X wrote gives the first image back, with its
width. -/
def Obligations.DownscaleInvertsUpscale : Prop :=
  ∀ (s t u : State) (f : Nat → Byte),
    let W := s.op.width.toNat
    let H := s.op.height.toNat
    let src := s.op.src.toNat
    let dst := s.op.dst.toNat
    let img := u.op.src.toNat
    let out := u.op.dst.toNat
    InLmem s.memSize.toNat src (3 * W * H) → InLmem s.memSize.toNat dst (12 * W * H) →
    ¬ Overlap src (3 * W * H) dst (12 * W * H) → s.lmem.Holds src (3 * W * H) f →
    exec .upscale2x s = .next t → u.op.width.toNat = 2 * W → u.op.height.toNat = 2 * H →
    (∀ i, i < 12 * W * H → u.lmem.read (img + i) = t.lmem.read (dst + i)) →
    InLmem u.memSize.toNat img (12 * W * H) → InLmem u.memSize.toNat out (3 * W * H) →
    ¬ Overlap img (12 * W * H) out (3 * W * H) →
    ∃ v, exec .downscale2x u = .next v ∧ v.result = s.op.width ∧
      v.lmem.Holds out (3 * W * H) f

/-- 45_resampler.md R225, 44_pixel_pack.md R193: the encoded side of an `n`-byte payload: never less for a
longer payload; 8 for n = 0 to 4 and 10 for n = 5 to 10. -/
def Obligations.EncodedSide : Prop :=
  let side := fun n => 2 * csqrt (4 * ceilDiv (n + 8) 3)
  (∀ m n : Nat, m ≤ n → side m ≤ side n) ∧ (∀ n, n ≤ 4 → side n = 8) ∧
    (∀ n, 5 ≤ n → n ≤ 10 → side n = 10)

/-- 45_resampler.md R226: an upscaled image of levels with one bit of one sample inverted: DOWNSCALE2X
completes, and every channel it writes has the level of the undisturbed one. -/
def Obligations.OneBitFlipAbsorbed : Prop :=
  ∀ (u : State) (f : Nat → Byte) (W H x₀ y₀ c₀ k : Nat),
    let img := u.op.src.toNat
    let out := u.op.dst.toNat
    let level := fun x y ch => f (3 * (y / 2 * W + x / 2) + ch)
    u.op.width.toNat = 2 * W → u.op.height.toNat = 2 * H →
    InLmem u.memSize.toNat img (12 * W * H) → InLmem u.memSize.toNat out (3 * W * H) →
    ¬ Overlap img (12 * W * H) out (3 * W * H) →
    (∀ i, i < 3 * W * H → f i ∈ [0x00#8, 0x55#8, 0xAA#8, 0xFF#8]) → k < 8 →
    (∀ x y ch, x < 2 * W → y < 2 * H → ch < 3 →
      u.lmem.read (img + 3 * (y * (2 * W) + x) + ch)
        = some (if x = x₀ ∧ y = y₀ ∧ ch = c₀ then level x y ch ^^^ (1#8 <<< k) else level x y ch)) →
    ∃ v, exec .downscale2x u = .next v ∧
      ∀ i, i < 3 * W * H →
        ∃ b, v.lmem.read (out + i) = some b ∧ levelOf b = levelOf (f i)

/-! ### The whole machine -/

/-- 40_control.md R117, spec/95_test_vectors.md S7: the encode pipeline, then the decode pipeline on its
image, each command given the RESULT and the buffer of the one before, with every buffer in LMEM and apart
from the others: no fault, the image has side `2 * csqrt(P)`, and the payload comes back with its length and
`INTEG_OK` = 1. -/
def Obligations.CodecRoundTrip : Prop :=
  ∀ (s : State) (f : Nat → Byte) (n side a₀ a₁ a₂ a₃ a₄ a₅ a₆ : Nat),
    let G := (n + 8 + 2) / 3
    n < 2 ^ 24 → IsCsqrt (4 * G) side → s.lmem.Holds a₀ n f →
    a₀ + n ≤ a₁ → a₁ + (n + 8) ≤ a₂ → a₂ + 12 * G ≤ a₃ → a₃ + 3 * side * side ≤ a₄ →
    a₄ + 12 * side * side ≤ a₅ → a₅ + 3 * side * side ≤ a₆ →
    a₆ + 3 * ((side * side + 3) / 4) ≤ s.memSize.toNat →
    ∃ t₁ t₂ t₃ t₄ t₅ t₆ t₇,
      exec .frameBuild (s.withLatch a₀ a₁ n 0 0) = .next t₁ ∧
      exec .pack (t₁.withLatch a₁ a₂ t₁.result.toNat 0 0) = .next t₂ ∧
      exec .canvas (t₂.withLatch a₂ a₃ t₂.result.toNat 0 0) = .next t₃ ∧
      exec .upscale2x (t₃.withLatch a₃ a₄ 0 t₃.result.toNat t₃.result.toNat) = .next t₄ ∧
      exec .downscale2x (t₄.withLatch a₄ a₅ 0 t₄.result.toNat t₄.result.toNat) = .next t₅ ∧
      exec .unpack (t₅.withLatch a₅ a₆ (t₅.result.toNat * t₅.result.toNat) 0 0) = .next t₆ ∧
      exec .frameCheck (t₆.withLatch a₆ 0 t₆.result.toNat 0 0) = .next t₇ ∧
      t₄.result.toNat = 2 * side ∧ t₇.result.toNat = n ∧
      t₇.status = { s.status with integOk := true } ∧ t₇.lmem.Holds (a₆ + 8) n f

/-- 70_reset_and_hazards.md R275: the state after reset, for every allowed size of LMEM. What the latch and
the model's own fields hold is the model's choice (logs 3 to 5) and not stated. -/
def Obligations.ResetState : Prop :=
  ∀ size : Word,
    let s := State.resetOf size
    s.irqEn = false ∧ s.status.toWord = 0x00000000#32 ∧ s.src = 0#32 ∧ s.dst = 0#32 ∧ s.len = 0#32 ∧
      s.width = 0#32 ∧ s.height = 0#32 ∧ s.arg = 0#32 ∧ s.result = 0#32 ∧
      s.crcState = 0xFFFFFFFF#32 ∧ s.crcResult = 0#32 ∧ s.lmemAddr = 0#32 ∧ s.memSize = size ∧
      s.irq = false ∧ ∀ a, s.lmem.read a = none

/-- The invariant holds after reset, for every allowed size of LMEM (00_scope.md R7). -/
def Obligations.ResetSatisfiesInvariant : Prop :=
  ∀ size : Word, 1 ≤ size.toNat → size.toNat ≤ 2 ^ 31 → (State.resetOf size).Inv

/-- Every step keeps the invariant: canonical memory inside LMEM (20_memory.md R60), `DONE` = 0 while a
command runs (10_state.md R26), no recorded code without `ERR` (R29), only faults of 60_exceptions.md R241
recorded, only a holdable access held (40_control.md R115). -/
def Obligations.StepKeepsInvariant : Prop :=
  ∀ s t : State, s.Inv → step s = .next t → t.Inv
end

