-- ==== Sys2Proof/Laws/Memory.lean ====
section
/-! SUPPORT. What the LMEM operations do: reading after writing, reading a range, and the canonical form. -/

namespace Sys2Proof.Machine

/-! ### Reading a list of places -/

/-- `readAll` answers exactly when every place has a byte, and then with those bytes. -/
theorem readAll_eq_some {f : Nat → Option Byte} {ks : List Nat} {bs : List Byte} :
    readAll f ks = some bs ↔ ks.map f = bs.map some := by
  induction ks generalizing bs with
  | nil => cases bs <;> simp [readAll]
  | cons k ks ih =>
    rw [readAll]
    constructor
    · intro h
      split at h
      · rename_i b cs hb hcs
        cases h
        simp [hb, ih.1 hcs]
      · cases h
    · intro h
      cases bs with
      | nil => simp at h
      | cons b cs =>
        rw [List.map_cons, List.map_cons, List.cons.injEq] at h
        rw [h.1, ih.2 h.2]

/-- Where every place holds a known byte, `readAll` answers those bytes. -/
theorem readAll_of_forall {f : Nat → Option Byte} {ks : List Nat} {g : Nat → Byte}
    (h : ∀ k ∈ ks, f k = some (g k)) : readAll f ks = some (ks.map g) := by
  rw [readAll_eq_some, List.map_map]
  exact List.map_congr_left h

/-- The bytes `readAll` answers, one by one. -/
theorem readAll_range {f : Nat → Option Byte} {n : Nat} {bs : List Byte}
    (h : readAll f (List.range n) = some bs) :
    bs.length = n ∧ ∀ i, i < n → f i = some (byteAt bs i) := by
  rw [readAll_eq_some] at h
  have hl : bs.length = n := by simpa using (congrArg List.length h).symm
  refine ⟨hl, fun i hi => ?_⟩
  have := congrArg (fun l => l[i]?) h
  simpa [hi, hl, byteAt, List.getD_eq_getElem?_getD] using this

/-- `readAll` has no answer exactly when some place has no byte. -/
theorem readAll_eq_none {f : Nat → Option Byte} {ks : List Nat} :
    readAll f ks = none ↔ ∃ k ∈ ks, f k = none := by
  induction ks with
  | nil => simp [readAll]
  | cons k ks ih =>
    rw [readAll]
    cases hf : f k with
    | none => simp [hf]
    | some b =>
      cases hr : readAll f ks with
      | none => simpa [hf] using ih.1 hr
      | some bs =>
        simp only [List.mem_cons, exists_eq_or_imp, hf, reduceCtorEq, false_or, false_iff]
        intro hk
        exact absurd (ih.2 hk) (by simp [hr])

/-- `MemRead` where LMEM holds known bytes. -/
theorem Memory.readBytes_of_holds {m : Memory} {a n : Nat} {f : Nat → Byte} (h : m.Holds a n f) :
    m.readBytes a n = some (bytesOf n f) :=
  readAll_of_forall fun k hk => h k (List.mem_range.1 hk)

/-- `MemRead` answers what LMEM holds. -/
theorem Memory.holds_of_readBytes {m : Memory} {a n : Nat} {bs : List Byte}
    (h : m.readBytes a n = some bs) : bs.length = n ∧ m.Holds a n (byteAt bs) :=
  readAll_range h

theorem Memory.readBytes_eq_none {m : Memory} {a n : Nat} :
    m.readBytes a n = none ↔ ∃ i, i < n ∧ m.read (a + i) = none := by
  simp [Memory.readBytes, readAll_eq_none]

@[simp] theorem bytesOf_length (n : Nat) (f : Nat → Byte) : (bytesOf n f).length = n := by
  simp [bytesOf]

theorem byteAt_bytesOf {n : Nat} (f : Nat → Byte) (i : Nat) :
    byteAt (bytesOf n f) i = padded n f i := by
  unfold byteAt bytesOf padded
  split <;> simp_all [List.getD_eq_getElem?_getD]

theorem byteAt_of_lt {bs : List Byte} {i : Nat} (h : i < bs.length) : byteAt bs i = bs[i] := by
  simp [byteAt, List.getD_eq_getElem?_getD, h]

theorem bytesOf_congr {n : Nat} {f g : Nat → Byte} (h : ∀ i, i < n → f i = g i) :
    bytesOf n f = bytesOf n g :=
  List.map_congr_left fun i hi => h i (List.mem_range.1 hi)

theorem bytesOf_byteAt (bs : List Byte) : bytesOf bs.length (byteAt bs) = bs := by
  apply List.ext_getElem (by simp)
  intro i h₁ h₂
  simp [bytesOf, byteAt_of_lt h₂]

/-! ### Reading after a write -/

theorem lookup_filter {p : Host.Cell → Bool} {P : Nat → Bool} (hp : ∀ c, p c = P c.1) (m : Memory)
    (x : Nat) : (m.filter p).lookup x = if P x then m.lookup x else none := by
  induction m with
  | nil => simp
  | cons c m ih =>
    obtain ⟨a, b⟩ := c
    by_cases hx : x = a
    · subst hx
      cases hP : P x <;> simp [List.filter, hp, hP, ih]
    · have hx' : (x == a) = false := by simp [hx]
      cases hP : P a <;> simp [List.filter, hp, hP, ih, List.lookup, hx']

theorem lookup_append (l m : Memory) (x : Nat) :
    (l ++ m).lookup x = (l.lookup x).or (m.lookup x) := by
  induction l with
  | nil => simp
  | cons c l ih =>
    obtain ⟨a, b⟩ := c
    cases hx : x == a <;> simp [List.lookup, hx, ih]

theorem lookup_cellsFrom (bs : List Byte) (a x : Nat) :
    (cellsFrom a bs).lookup x = if a ≤ x then bs[x - a]? else none := by
  induction bs generalizing a with
  | nil => simp [cellsFrom]
  | cons b bs ih =>
    rw [cellsFrom]
    by_cases hx : x = a
    · subst hx
      simp [List.lookup]
    · have hx' : (x == a) = false := by simp [hx]
      simp only [List.lookup, hx', ih]
      by_cases hle : a ≤ x
      · have : x - a = (x - (a + 1)) + 1 := by omega
        rw [if_pos hle, if_pos (by omega), this, List.getElem?_cons_succ]
      · rw [if_neg hle, if_neg (by omega)]

/-- What LMEM reads after a write: the byte written there, or what it read before. -/
theorem Memory.read_writeBytes (m : Memory) (a : Nat) (bs : List Byte) (x : Nat) :
    (m.writeBytes a bs).read x = if a ≤ x ∧ x < a + bs.length then bs[x - a]? else m.read x := by
  unfold Memory.writeBytes Memory.read
  rw [lookup_append, lookup_append, lookup_cellsFrom,
    lookup_filter (P := fun k => decide (k < a)) (fun _ => rfl),
    lookup_filter (P := fun k => decide (a + bs.length ≤ k)) (fun _ => rfl)]
  by_cases h₁ : x < a
  · simp [h₁, show ¬ a ≤ x by omega, show ¬ a + bs.length ≤ x by omega]
  · by_cases h₂ : x < a + bs.length
    · simp [h₁, show a ≤ x by omega, h₂, show ¬ a + bs.length ≤ x by omega]
    · have : bs[x - a]? = none := by simp; omega
      simp [h₁, show a ≤ x by omega, h₂, show a + bs.length ≤ x by omega, this]

/-- A byte of the written range. -/
theorem Memory.read_writeBytes_in {m : Memory} {a : Nat} {bs : List Byte} {k : Nat}
    (h : k < bs.length) : (m.writeBytes a bs).read (a + k) = some (byteAt bs k) := by
  rw [Memory.read_writeBytes, if_pos ⟨by omega, by omega⟩, Nat.add_sub_cancel_left,
    List.getElem?_eq_getElem h, byteAt_of_lt h]

/-- A write changes nothing outside its range. -/
theorem Memory.writeBytes_sameOutside (m : Memory) (a : Nat) (bs : List Byte) {n : Nat}
    (h : bs.length = n) : m.SameOutside (m.writeBytes a bs) a n := fun x hx => by
  rw [Memory.read_writeBytes, if_neg (h ▸ hx)]

/-! ### The canonical form -/

theorem mem_cellsFrom {bs : List Byte} {a : Nat} {c : Host.Cell} (h : c ∈ cellsFrom a bs) :
    a ≤ c.1 ∧ c.1 < a + bs.length := by
  induction bs generalizing a with
  | nil => simp [cellsFrom] at h
  | cons b bs ih =>
    rw [cellsFrom, List.mem_cons] at h
    rcases h with rfl | h
    · simp
    · have := ih h
      simp only [List.length_cons]
      omega

theorem cellsFrom_wf (bs : List Byte) (a : Nat) : Memory.wf (cellsFrom a bs) := by
  induction bs generalizing a with
  | nil => exact List.Pairwise.nil
  | cons b bs ih =>
    refine List.Pairwise.cons (fun c hc => ?_) (ih (a + 1))
    have := mem_cellsFrom hc
    show a < c.1
    omega

/-- A write keeps the canonical form. -/
theorem Memory.wf_writeBytes {m : Memory} (h : m.wf) (a : Nat) (bs : List Byte) :
    (m.writeBytes a bs).wf := by
  unfold Memory.writeBytes
  refine List.pairwise_append.2 ⟨List.pairwise_append.2 ⟨h.filter _, cellsFrom_wf bs a, ?_⟩,
    h.filter _, ?_⟩
  · intro c hc d hd
    have := mem_cellsFrom hd
    simp only [List.mem_filter, decide_eq_true_eq] at hc
    omega
  · intro c hc d hd
    simp only [List.mem_filter, decide_eq_true_eq, List.mem_append] at hc hd
    rcases hc with hc | hc
    · omega
    · have := mem_cellsFrom hc
      omega

/-- A write inside `size` bytes of memory keeps every listed address there. -/
theorem Memory.in_writeBytes {m : Memory} {size : Nat} (h : ∀ c ∈ m, c.1 < size) {a : Nat}
    {bs : List Byte} (hb : bs.length = 0 ∨ a + bs.length ≤ size) :
    ∀ c ∈ m.writeBytes a bs, c.1 < size := by
  intro c hc
  simp only [Memory.writeBytes, List.mem_append, List.mem_filter] at hc
  rcases hc with (hc | hc) | hc
  · exact h c hc.1
  · have := mem_cellsFrom hc
    omega
  · exact h c hc.1

/-- What a store leaves in its range, byte by byte. -/
theorem Memory.holds_writeBytes {m : Memory} {a n : Nat} {bs : List Byte} {f : Nat → Byte}
    (hl : bs.length = n) (h : ∀ i, i < n → byteAt bs i = f i) : (m.writeBytes a bs).Holds a n f := by
  intro i hi
  rw [Memory.read_writeBytes_in (by omega), h i hi]

/-- No byte is listed after reset, so its memory is canonical. -/
theorem reset_lmem_wf : State.reset.lmem.wf := List.Pairwise.nil

end Sys2Proof.Machine
end

