-- ==== Sys2Proof/Laws/Bytes.lean ====
section
/-! SUPPORT. The byte sequences the commands build: how long they are, and their bytes one by one. -/

namespace Sys2Proof.Machine

/-! ### Sequences built from blocks of one size -/

theorem length_flatMap_range {F : Nat → List Byte} {c : Nat} (h : ∀ g, (F g).length = c) (n : Nat) :
    ((List.range n).flatMap F).length = c * n := by
  induction n with
  | zero => simp
  | succ n ih => simp [List.range_succ, h, ih, Nat.mul_succ]

theorem byteAt_append (l m : List Byte) (k : Nat) :
    byteAt (l ++ m) k = if k < l.length then byteAt l k else byteAt m (k - l.length) := by
  simp only [byteAt, List.getD_eq_getElem?_getD, List.getElem?_append]
  split <;> rfl

/-- Byte `k` of a sequence of blocks of `c` bytes is byte `k mod c` of block `k div c`. -/
theorem byteAt_flatMap_range {F : Nat → List Byte} {c : Nat} (h : ∀ g, (F g).length = c)
    {n k : Nat} (hk : k < c * n) :
    byteAt ((List.range n).flatMap F) k = byteAt (F (k / c)) (k % c) := by
  induction n with
  | zero => simp at hk
  | succ n ih =>
    rw [List.range_succ, List.flatMap_append, byteAt_append, length_flatMap_range h]
    split
    · exact ih ‹_›
    · rename_i hn
      have hq : k / c = n := Nat.div_eq_of_lt_le (by rw [Nat.mul_comm]; omega)
        (by rw [Nat.mul_comm]; exact hk)
      have hm : k % c = k - c * n := by rw [Nat.mod_eq_sub_mul_div, hq]
      simp [hq, hm]

theorem byteAt_map_range {f : Nat → Byte} {n k : Nat} (hk : k < n) :
    byteAt ((List.range n).map f) k = f k := by
  have := byteAt_bytesOf (n := n) f k
  rw [bytesOf] at this
  rw [this, padded, if_pos hk]

/-! ### Lengths -/

@[simp] theorem le32_length (v : Word) : (le32 v).length = 4 := rfl

@[simp] theorem pixelAt_length (f : List Byte) (i : Nat) : (pixelAt f i).length = 3 := rfl

@[simp] theorem packGroup_length (f : List Byte) (g : Nat) : (packGroup f g).length = 12 := by
  simp [packGroup]

@[simp] theorem unpackGroup_length (n : Nat) (f : List Byte) (g : Nat) :
    (unpackGroup n f g).length = 3 := rfl

@[simp] theorem packBytes_length (f : List Byte) :
    (packBytes f).length = 12 * ceilDiv f.length 3 :=
  length_flatMap_range (packGroup_length f) _

@[simp] theorem canvasBytes_length (p : Nat) (f : List Byte) :
    (canvasBytes p f).length = 3 * csqrt p * csqrt p := by
  rw [canvasBytes, length_flatMap_range (c := 3) (fun g => by split <;> rfl), Nat.mul_assoc]

@[simp] theorem unpackBytes_length (n : Nat) (f : List Byte) :
    (unpackBytes n f).length = 3 * ceilDiv n 4 :=
  length_flatMap_range (unpackGroup_length n f) _

@[simp] theorem upscaleBytes_length (w h : Nat) (f : List Byte) :
    (upscaleBytes w h f).length = 12 * w * h := by
  rw [upscaleBytes, length_flatMap_range (c := 3) (fun _ => rfl)]
  ring

@[simp] theorem frameBytes_length (p : List Byte) : (frameBytes p).length = p.length + 8 := by
  simp [frameBytes]
  omega

theorem downscaleRead_length {m : Memory} {base w h : Nat} {bs : List Byte}
    (hb : downscaleRead m base w h = some bs) : bs.length = 3 * (w / 2) * (h / 2) :=
  (readAll_range hb).1

/-! ### Byte order -/

theorem byteAt_le32 (v : Word) {k : Nat} (hk : k < 4) :
    byteAt (le32 v) k = v.extractLsb' (8 * k) 8 := by
  interval_cases k <;> rfl

/-- The four bytes of a word, put together again (00_scope.md R10). -/
theorem fromLe32_le32_append (v : Word) (l : List Byte) : fromLe32 (le32 v ++ l) = v.toNat := by
  simp only [fromLe32, byteAt, le32, List.cons_append, List.getD_cons_zero, List.getD_cons_succ,
    BitVec.extractLsb'_toNat, Nat.shiftRight_eq_div_pow]
  have := v.isLt
  omega

/-! ### The quantizer -/

/-- A slice as a base-4 digit (43_quantizer.md R170). -/
theorem sym_eq_sliceDigit (b : Byte) {k : Nat} (hk : k < 4) : sym b k = sliceDigit b k := by
  have h3 : ∀ x : Nat, x &&& 3 = x % 4 := fun x => Nat.and_two_pow_sub_one_eq_mod x 2
  interval_cases k <;> simp [sym, sliceDigit, h3, Nat.shiftRight_eq_div_pow]

/-- The thresholds of the dequantizer (43_quantizer.md R172). -/
theorem dq_eq_levelOf (c : Byte) : dq c = levelOf c := by
  have := c.isLt
  simp only [dq, Config.qStep, levelOf]
  split
  · omega
  · split
    · omega
    · split <;> omega

theorem dq_lt (c : Byte) : dq c < 4 := by unfold dq; omega

theorem sliceDigit_lt (b : Byte) (k : Nat) : sliceDigit b k < 4 := Nat.mod_lt _ (by decide)

/-- Dequantizing a quantized symbol gives it back (43_quantizer.md R175). -/
theorem dq_q {s : Nat} (hs : s < 4) : dq (q s) = s := by
  interval_cases s <;> decide

/-! ### Pixel arrays -/

theorem byteAt_pixelAt (f : List Byte) (i : Nat) {ch : Nat} (h : ch < 3) :
    byteAt (pixelAt f i) ch = byteAt f (3 * i + ch) := by
  interval_cases ch <;> rfl

/-- Channel `k` of a packed frame (44_pixel_pack.md R191). -/
theorem byteAt_packBytes (f : List Byte) {k : Nat} (hk : k < 12 * ceilDiv f.length 3) :
    byteAt (packBytes f) k = q (sym (byteAt f (3 * (k / 12) + k % 12 / 4)) (k % 4)) := by
  rw [packBytes, byteAt_flatMap_range (packGroup_length f) hk, packGroup,
    byteAt_map_range (Nat.mod_lt _ (by decide)), show k % 12 % 4 = k % 4 by omega]

/-- Byte `k` of a canvas (44_pixel_pack.md R195). -/
theorem byteAt_canvasBytes (p : Nat) (f : List Byte) {k : Nat} (hk : k < 3 * csqrt p * csqrt p) :
    byteAt (canvasBytes p f) k = if k < 3 * p then byteAt f k else Config.white := by
  rw [canvasBytes, byteAt_flatMap_range (c := 3) (fun g => by split <;> rfl)
    (by rwa [← Nat.mul_assoc])]
  have hm : k % 3 < 3 := Nat.mod_lt _ (by decide)
  by_cases h : k / 3 < p
  · rw [if_pos h, if_pos (by omega), byteAt_pixelAt _ _ hm, Nat.div_add_mod]
  · rw [if_neg h, if_neg (by omega)]
    generalize k % 3 = c at hm
    interval_cases c <;> rfl

/-- Byte `k` of an upscaled image (45_resampler.md R220). -/
theorem byteAt_upscaleBytes {w h : Nat} (f : List Byte) {x y ch : Nat} (hx : x < 2 * w)
    (hy : y < 2 * h) (hch : ch < 3) :
    byteAt (upscaleBytes w h f) (3 * (y * (2 * w) + x) + ch)
      = byteAt f (3 * (y / 2 * w + x / 2) + ch) := by
  have hk : y * (2 * w) + x < 2 * w * (2 * h) := by nlinarith
  rw [upscaleBytes, byteAt_flatMap_range (c := 3) (fun _ => rfl) (by omega),
    show (3 * (y * (2 * w) + x) + ch) / 3 = y * (2 * w) + x by omega,
    show (3 * (y * (2 * w) + x) + ch) % 3 = ch by omega, byteAt_pixelAt _ _ hch,
    Nat.mul_comm y, Nat.mul_add_div (by omega), Nat.mul_add_mod,
    Nat.div_eq_of_lt hx, Nat.mod_eq_of_lt hx, Nat.add_zero]

/-- Two bits ORed in below a multiple of 4 are added. -/
theorem or_symbol {a b k : Nat} (ha : a % 2 ^ (k + 2) = 0) (hb : b < 4) :
    a ||| (b <<< k) = a + b * 2 ^ k := by
  have hlt : b * 2 ^ k < 2 ^ (k + 2) := by rw [Nat.pow_add]; nlinarith [Nat.two_pow_pos k]
  have h : a = 2 ^ (k + 2) * (a / 2 ^ (k + 2)) := by
    have := Nat.div_add_mod a (2 ^ (k + 2)); omega
  rw [Nat.shiftLeft_eq, h, ← Nat.two_pow_add_eq_or_of_lt hlt]

/-- Four symbols after a multiple of 256, shifted `k` places, as a base-4 number. -/
theorem or_four_symbols {a k d₀ d₁ d₂ d₃ : Nat} (ha : a % 2 ^ (k + 8) = 0) (h₀ : d₀ < 4) (h₁ : d₁ < 4)
    (h₂ : d₂ < 4) (h₃ : d₃ < 4) :
    a ||| d₀ <<< (k + 6) ||| d₁ <<< (k + 4) ||| d₂ <<< (k + 2) ||| d₃ <<< k
      = a + (64 * d₀ + 16 * d₁ + 4 * d₂ + d₃) * 2 ^ k := by
  have hz : ∀ x y : Nat, x % 2 ^ (k + y) = 0 ↔ 2 ^ y * 2 ^ k ∣ x := fun x y => by
    rw [← Nat.dvd_iff_mod_eq_zero, Nat.pow_add, Nat.mul_comm]
  rw [hz] at ha
  obtain ⟨c, rfl⟩ := ha
  have e₀ : 2 ^ 8 * 2 ^ k * c + d₀ * 2 ^ (k + 6) = 2 ^ 6 * 2 ^ k * (4 * c + d₀) := by ring
  have e₁ : 2 ^ 6 * 2 ^ k * (4 * c + d₀) + d₁ * 2 ^ (k + 4)
      = 2 ^ 4 * 2 ^ k * (16 * c + 4 * d₀ + d₁) := by ring
  have e₂ : 2 ^ 4 * 2 ^ k * (16 * c + 4 * d₀ + d₁) + d₂ * 2 ^ (k + 2)
      = 2 ^ 2 * 2 ^ k * (64 * c + 16 * d₀ + 4 * d₁ + d₂) := by ring
  rw [or_symbol (k := k + 6) ((hz _ 8).2 ⟨c, rfl⟩) h₀, e₀,
    or_symbol (k := k + 4) ((hz _ 6).2 ⟨_, rfl⟩) h₁, e₁,
    or_symbol (k := k + 2) ((hz _ 4).2 ⟨_, rfl⟩) h₂, e₂,
    or_symbol (k := k) ((hz _ 2).2 ⟨_, rfl⟩) h₃]
  ring

/-- The four channels from number `j` on of a group, as the base-4 digits of a byte. -/
def channelByte (n : Nat) (f : List Byte) (g j : Nat) : Nat :=
  64 * dq (groupChannel n f g j) + 16 * dq (groupChannel n f g (j + 1))
    + 4 * dq (groupChannel n f g (j + 2)) + dq (groupChannel n f g (j + 3))

theorem channelByte_lt (n : Nat) (f : List Byte) (g j : Nat) : channelByte n f g j < 256 := by
  have h := fun j => dq_lt (groupChannel n f g j)
  have h0 := h j; have h1 := h (j + 1); have h2 := h (j + 2); have h3 := h (j + 3)
  unfold channelByte
  omega

/-- `Wd` of a group is its three bytes (44_pixel_pack.md R196). -/
theorem groupWord_eq (n : Nat) (f : List Byte) (g : Nat) :
    groupWord n f g = channelByte n f g 0 * 2 ^ 16 + channelByte n f g 4 * 2 ^ 8
      + channelByte n f g 8 := by
  have hd := fun j => dq_lt (groupChannel n f g j)
  have e₁ := or_four_symbols (a := 0) (k := 16) (Nat.zero_mod _) (hd 0) (hd 1) (hd 2) (hd 3)
  have e₂ := or_four_symbols (a := channelByte n f g 0 * 2 ^ 16) (k := 8) (by omega) (hd 4) (hd 5)
    (hd 6) (hd 7)
  have e₃ := or_four_symbols (a := channelByte n f g 0 * 2 ^ 16 + channelByte n f g 4 * 2 ^ 8) (k := 0)
    (by omega) (hd 8) (hd 9) (hd 10) (hd 11)
  simp only [groupWord, show List.range 12 = [0, 1, 2, 3, 4, 5, 6, 7, 8, 9, 10, 11] from rfl,
    List.foldl_cons, List.foldl_nil]
  have h₁ := e₁.trans (Nat.zero_add (channelByte n f g 0 * 2 ^ 16))
  have h₂ : _ = channelByte n f g 0 * 2 ^ 16 + channelByte n f g 4 * 2 ^ 8 := e₂
  have h₃ : _ = channelByte n f g 0 * 2 ^ 16 + channelByte n f g 4 * 2 ^ 8
      + channelByte n f g 8 * 2 ^ 0 := e₃
  rw [Nat.pow_zero, Nat.mul_one] at h₃
  rw [← h₃, ← h₂, ← h₁]

theorem toByte_congr {x y : Nat} (h : x % 256 = y % 256) : toByte x = toByte y := by
  apply BitVec.eq_of_toNat_eq
  simpa [toByte] using h

/-- The byte that carries channels `4c` to `4c + 3` of a group. -/
theorem byteAt_unpackGroup (n : Nat) (f : List Byte) (g : Nat) {c : Nat} (hc : c < 3) :
    byteAt (unpackGroup n f g) c = toByte (channelByte n f g (4 * c)) := by
  have h0 := channelByte_lt n f g 0
  have h4 := channelByte_lt n f g 4
  have h8 := channelByte_lt n f g 8
  unfold unpackGroup
  rw [groupWord_eq]
  simp only [Nat.shiftRight_eq_div_pow]
  interval_cases c <;> refine toByte_congr ?_ <;>
    simp only [Nat.mul_zero, Nat.mul_one, Nat.reduceMul] <;> omega

theorem groupChannel_eq (n : Nat) (f : List Byte) (g j : Nat) :
    groupChannel n f g j = padded (3 * n) (byteAt f) (12 * g + j) := by
  unfold groupChannel padded
  by_cases h : 4 * g + j / 3 < n
  · rw [if_pos h, if_pos (by omega), show 3 * (4 * g + j / 3) + j % 3 = 12 * g + j by omega]
  · rw [if_neg h, if_neg (by omega)]

/-- Byte `i` of an unpacked array (44_pixel_pack.md R196). -/
theorem byteAt_unpackBytes (n : Nat) (f : List Byte) {i : Nat} (hi : i < 3 * ceilDiv n 4) :
    byteAt (unpackBytes n f) i = unpackedByte n (byteAt f) i := by
  have hm : i % 3 < 3 := Nat.mod_lt _ (by decide)
  rw [unpackBytes, byteAt_flatMap_range (unpackGroup_length n f) hi,
    byteAt_unpackGroup _ _ _ hm, unpackedByte]
  simp only [channelByte, dq_eq_levelOf, toByte]
  simp only [groupChannel_eq]
  have e : 12 * (i / 3) + 4 * (i % 3) = 4 * i := by omega
  simp only [← Nat.add_assoc, e]

theorem unpackedByte_congr {n : Nat} {f g : Nat → Byte} (h : ∀ k, k < 3 * n → f k = g k) (i : Nat) :
    unpackedByte n f i = unpackedByte n g i := by
  have hp : ∀ k, padded (3 * n) f k = padded (3 * n) g k := fun k => by
    unfold padded
    split
    · exact h k ‹_›
    · rfl
  simp only [unpackedByte, hp]

/-- Channel `k` of a packed frame whose bytes are `f` (44_pixel_pack.md R191). -/
theorem q_sym_eq_packedChannel (n : Nat) (f : Nat → Byte) (k : Nat) :
    q (sym (padded n f (3 * (k / 12) + k % 12 / 4)) (k % 4)) = packedChannel n f k := by
  rw [sym_eq_sliceDigit _ (Nat.mod_lt _ (by decide)), q, toByte, Config.qStep, packedChannel]

end Sys2Proof.Machine
end

