-- ==== Sys2Proof/Laws/State.lean ====
section
/-! SUPPORT. One lemma per field of State and named update, so that no proof unfolds a record update. -/

namespace Sys2Proof.Machine

section setResult
variable (s : State) (n : Nat)
@[simp] theorem State.setResult_irqEn : (s.setResult n).irqEn = s.irqEn := rfl
@[simp] theorem State.setResult_status : (s.setResult n).status = s.status := rfl
@[simp] theorem State.setResult_src : (s.setResult n).src = s.src := rfl
@[simp] theorem State.setResult_dst : (s.setResult n).dst = s.dst := rfl
@[simp] theorem State.setResult_len : (s.setResult n).len = s.len := rfl
@[simp] theorem State.setResult_width : (s.setResult n).width = s.width := rfl
@[simp] theorem State.setResult_height : (s.setResult n).height = s.height := rfl
@[simp] theorem State.setResult_arg : (s.setResult n).arg = s.arg := rfl
@[simp] theorem State.setResult_result : (s.setResult n).result = toWord n := rfl
@[simp] theorem State.setResult_crcState : (s.setResult n).crcState = s.crcState := rfl
@[simp] theorem State.setResult_lmemAddr : (s.setResult n).lmemAddr = s.lmemAddr := rfl
@[simp] theorem State.setResult_memSize : (s.setResult n).memSize = s.memSize := rfl
@[simp] theorem State.setResult_op : (s.setResult n).op = s.op := rfl
@[simp] theorem State.setResult_lmem : (s.setResult n).lmem = s.lmem := rfl
@[simp] theorem State.setResult_hostQueue : (s.setResult n).hostQueue = s.hostQueue := rfl
@[simp] theorem State.setResult_held : (s.setResult n).held = s.held := rfl
@[simp] theorem State.setResult_responses : (s.setResult n).responses = s.responses := rfl
@[simp] theorem State.setResult_schedule : (s.setResult n).schedule = s.schedule := rfl
@[simp] theorem State.setResult_freeDraws : (s.setResult n).freeDraws = s.freeDraws := rfl
end setResult

section setCrc
variable (s : State) (c : Word)
@[simp] theorem State.setCrc_irqEn : (s.setCrc c).irqEn = s.irqEn := rfl
@[simp] theorem State.setCrc_status : (s.setCrc c).status = s.status := rfl
@[simp] theorem State.setCrc_src : (s.setCrc c).src = s.src := rfl
@[simp] theorem State.setCrc_dst : (s.setCrc c).dst = s.dst := rfl
@[simp] theorem State.setCrc_len : (s.setCrc c).len = s.len := rfl
@[simp] theorem State.setCrc_width : (s.setCrc c).width = s.width := rfl
@[simp] theorem State.setCrc_height : (s.setCrc c).height = s.height := rfl
@[simp] theorem State.setCrc_arg : (s.setCrc c).arg = s.arg := rfl
@[simp] theorem State.setCrc_result : (s.setCrc c).result = s.result := rfl
@[simp] theorem State.setCrc_crcState : (s.setCrc c).crcState = c := rfl
@[simp] theorem State.setCrc_lmemAddr : (s.setCrc c).lmemAddr = s.lmemAddr := rfl
@[simp] theorem State.setCrc_memSize : (s.setCrc c).memSize = s.memSize := rfl
@[simp] theorem State.setCrc_op : (s.setCrc c).op = s.op := rfl
@[simp] theorem State.setCrc_lmem : (s.setCrc c).lmem = s.lmem := rfl
@[simp] theorem State.setCrc_hostQueue : (s.setCrc c).hostQueue = s.hostQueue := rfl
@[simp] theorem State.setCrc_held : (s.setCrc c).held = s.held := rfl
@[simp] theorem State.setCrc_responses : (s.setCrc c).responses = s.responses := rfl
@[simp] theorem State.setCrc_schedule : (s.setCrc c).schedule = s.schedule := rfl
@[simp] theorem State.setCrc_freeDraws : (s.setCrc c).freeDraws = s.freeDraws := rfl
end setCrc

section setStatus
variable (s : State) (t : Status)
@[simp] theorem State.setStatus_irqEn : (s.setStatus t).irqEn = s.irqEn := rfl
@[simp] theorem State.setStatus_status : (s.setStatus t).status = t := rfl
@[simp] theorem State.setStatus_src : (s.setStatus t).src = s.src := rfl
@[simp] theorem State.setStatus_dst : (s.setStatus t).dst = s.dst := rfl
@[simp] theorem State.setStatus_len : (s.setStatus t).len = s.len := rfl
@[simp] theorem State.setStatus_width : (s.setStatus t).width = s.width := rfl
@[simp] theorem State.setStatus_height : (s.setStatus t).height = s.height := rfl
@[simp] theorem State.setStatus_arg : (s.setStatus t).arg = s.arg := rfl
@[simp] theorem State.setStatus_result : (s.setStatus t).result = s.result := rfl
@[simp] theorem State.setStatus_crcState : (s.setStatus t).crcState = s.crcState := rfl
@[simp] theorem State.setStatus_lmemAddr : (s.setStatus t).lmemAddr = s.lmemAddr := rfl
@[simp] theorem State.setStatus_memSize : (s.setStatus t).memSize = s.memSize := rfl
@[simp] theorem State.setStatus_op : (s.setStatus t).op = s.op := rfl
@[simp] theorem State.setStatus_lmem : (s.setStatus t).lmem = s.lmem := rfl
@[simp] theorem State.setStatus_hostQueue : (s.setStatus t).hostQueue = s.hostQueue := rfl
@[simp] theorem State.setStatus_held : (s.setStatus t).held = s.held := rfl
@[simp] theorem State.setStatus_responses : (s.setStatus t).responses = s.responses := rfl
@[simp] theorem State.setStatus_schedule : (s.setStatus t).schedule = s.schedule := rfl
@[simp] theorem State.setStatus_freeDraws : (s.setStatus t).freeDraws = s.freeDraws := rfl
end setStatus

section store
variable (s : State) (a : Nat) (bs : List Byte)
@[simp] theorem State.store_irqEn : (s.store a bs).irqEn = s.irqEn := rfl
@[simp] theorem State.store_status : (s.store a bs).status = s.status := rfl
@[simp] theorem State.store_src : (s.store a bs).src = s.src := rfl
@[simp] theorem State.store_dst : (s.store a bs).dst = s.dst := rfl
@[simp] theorem State.store_len : (s.store a bs).len = s.len := rfl
@[simp] theorem State.store_width : (s.store a bs).width = s.width := rfl
@[simp] theorem State.store_height : (s.store a bs).height = s.height := rfl
@[simp] theorem State.store_arg : (s.store a bs).arg = s.arg := rfl
@[simp] theorem State.store_result : (s.store a bs).result = s.result := rfl
@[simp] theorem State.store_crcState : (s.store a bs).crcState = s.crcState := rfl
@[simp] theorem State.store_lmemAddr : (s.store a bs).lmemAddr = s.lmemAddr := rfl
@[simp] theorem State.store_memSize : (s.store a bs).memSize = s.memSize := rfl
@[simp] theorem State.store_op : (s.store a bs).op = s.op := rfl
@[simp] theorem State.store_lmem : (s.store a bs).lmem = s.lmem.writeBytes a bs := rfl
@[simp] theorem State.store_hostQueue : (s.store a bs).hostQueue = s.hostQueue := rfl
@[simp] theorem State.store_held : (s.store a bs).held = s.held := rfl
@[simp] theorem State.store_responses : (s.store a bs).responses = s.responses := rfl
@[simp] theorem State.store_schedule : (s.store a bs).schedule = s.schedule := rfl
@[simp] theorem State.store_freeDraws : (s.store a bs).freeDraws = s.freeDraws := rfl
end store

section advancePort
variable (s : State)
@[simp] theorem State.advancePort_irqEn : (s.advancePort).irqEn = s.irqEn := rfl
@[simp] theorem State.advancePort_status : (s.advancePort).status = s.status := rfl
@[simp] theorem State.advancePort_src : (s.advancePort).src = s.src := rfl
@[simp] theorem State.advancePort_dst : (s.advancePort).dst = s.dst := rfl
@[simp] theorem State.advancePort_len : (s.advancePort).len = s.len := rfl
@[simp] theorem State.advancePort_width : (s.advancePort).width = s.width := rfl
@[simp] theorem State.advancePort_height : (s.advancePort).height = s.height := rfl
@[simp] theorem State.advancePort_arg : (s.advancePort).arg = s.arg := rfl
@[simp] theorem State.advancePort_result : (s.advancePort).result = s.result := rfl
@[simp] theorem State.advancePort_crcState : (s.advancePort).crcState = s.crcState := rfl
@[simp] theorem State.advancePort_lmemAddr : (s.advancePort).lmemAddr = s.lmemAddr + 1#32 := rfl
@[simp] theorem State.advancePort_memSize : (s.advancePort).memSize = s.memSize := rfl
@[simp] theorem State.advancePort_op : (s.advancePort).op = s.op := rfl
@[simp] theorem State.advancePort_lmem : (s.advancePort).lmem = s.lmem := rfl
@[simp] theorem State.advancePort_hostQueue : (s.advancePort).hostQueue = s.hostQueue := rfl
@[simp] theorem State.advancePort_held : (s.advancePort).held = s.held := rfl
@[simp] theorem State.advancePort_responses : (s.advancePort).responses = s.responses := rfl
@[simp] theorem State.advancePort_schedule : (s.advancePort).schedule = s.schedule := rfl
@[simp] theorem State.advancePort_freeDraws : (s.advancePort).freeDraws = s.freeDraws := rfl
end advancePort

section respond
variable (s : State) (r : Response)
@[simp] theorem State.respond_irqEn : (s.respond r).irqEn = s.irqEn := rfl
@[simp] theorem State.respond_status : (s.respond r).status = s.status := rfl
@[simp] theorem State.respond_src : (s.respond r).src = s.src := rfl
@[simp] theorem State.respond_dst : (s.respond r).dst = s.dst := rfl
@[simp] theorem State.respond_len : (s.respond r).len = s.len := rfl
@[simp] theorem State.respond_width : (s.respond r).width = s.width := rfl
@[simp] theorem State.respond_height : (s.respond r).height = s.height := rfl
@[simp] theorem State.respond_arg : (s.respond r).arg = s.arg := rfl
@[simp] theorem State.respond_result : (s.respond r).result = s.result := rfl
@[simp] theorem State.respond_crcState : (s.respond r).crcState = s.crcState := rfl
@[simp] theorem State.respond_lmemAddr : (s.respond r).lmemAddr = s.lmemAddr := rfl
@[simp] theorem State.respond_memSize : (s.respond r).memSize = s.memSize := rfl
@[simp] theorem State.respond_op : (s.respond r).op = s.op := rfl
@[simp] theorem State.respond_lmem : (s.respond r).lmem = s.lmem := rfl
@[simp] theorem State.respond_hostQueue : (s.respond r).hostQueue = s.hostQueue := rfl
@[simp] theorem State.respond_held : (s.respond r).held = s.held := rfl
@[simp] theorem State.respond_responses : (s.respond r).responses = r :: s.responses := rfl
@[simp] theorem State.respond_schedule : (s.respond r).schedule = s.schedule := rfl
@[simp] theorem State.respond_freeDraws : (s.respond r).freeDraws = s.freeDraws := rfl
end respond

section accept
variable (s : State) (w : Word)
@[simp] theorem State.accept_irqEn : (s.accept w).irqEn = s.irqEn := rfl
@[simp] theorem State.accept_status : (s.accept w).status = s.status.accept := rfl
@[simp] theorem State.accept_src : (s.accept w).src = s.src := rfl
@[simp] theorem State.accept_dst : (s.accept w).dst = s.dst := rfl
@[simp] theorem State.accept_len : (s.accept w).len = s.len := rfl
@[simp] theorem State.accept_width : (s.accept w).width = s.width := rfl
@[simp] theorem State.accept_height : (s.accept w).height = s.height := rfl
@[simp] theorem State.accept_arg : (s.accept w).arg = s.arg := rfl
@[simp] theorem State.accept_result : (s.accept w).result = s.result := rfl
@[simp] theorem State.accept_crcState : (s.accept w).crcState = s.crcState := rfl
@[simp] theorem State.accept_lmemAddr : (s.accept w).lmemAddr = s.lmemAddr := rfl
@[simp] theorem State.accept_memSize : (s.accept w).memSize = s.memSize := rfl
@[simp] theorem State.accept_op : (s.accept w).op = ⟨w, s.src, s.dst, s.len, s.width, s.height, s.arg⟩ := rfl
@[simp] theorem State.accept_lmem : (s.accept w).lmem = s.lmem := rfl
@[simp] theorem State.accept_hostQueue : (s.accept w).hostQueue = s.hostQueue := rfl
@[simp] theorem State.accept_held : (s.accept w).held = s.held := rfl
@[simp] theorem State.accept_responses : (s.accept w).responses = s.responses := rfl
@[simp] theorem State.accept_schedule : (s.accept w).schedule = s.schedule := rfl
@[simp] theorem State.accept_freeDraws : (s.accept w).freeDraws = s.freeDraws := rfl
end accept

section complete
variable (s : State)
@[simp] theorem State.complete_irqEn : (s.complete).irqEn = s.irqEn := rfl
@[simp] theorem State.complete_status : (s.complete).status = s.status.complete := rfl
@[simp] theorem State.complete_src : (s.complete).src = s.src := rfl
@[simp] theorem State.complete_dst : (s.complete).dst = s.dst := rfl
@[simp] theorem State.complete_len : (s.complete).len = s.len := rfl
@[simp] theorem State.complete_width : (s.complete).width = s.width := rfl
@[simp] theorem State.complete_height : (s.complete).height = s.height := rfl
@[simp] theorem State.complete_arg : (s.complete).arg = s.arg := rfl
@[simp] theorem State.complete_result : (s.complete).result = s.result := rfl
@[simp] theorem State.complete_crcState : (s.complete).crcState = s.crcState := rfl
@[simp] theorem State.complete_lmemAddr : (s.complete).lmemAddr = s.lmemAddr := rfl
@[simp] theorem State.complete_memSize : (s.complete).memSize = s.memSize := rfl
@[simp] theorem State.complete_op : (s.complete).op = s.op := rfl
@[simp] theorem State.complete_lmem : (s.complete).lmem = s.lmem := rfl
@[simp] theorem State.complete_hostQueue : (s.complete).hostQueue = s.hostQueue := rfl
@[simp] theorem State.complete_held : (s.complete).held = false := rfl
@[simp] theorem State.complete_responses : (s.complete).responses = s.responses := rfl
@[simp] theorem State.complete_schedule : (s.complete).schedule = s.schedule := rfl
@[simp] theorem State.complete_freeDraws : (s.complete).freeDraws = s.freeDraws := rfl
end complete

section resetRegisters
variable (s : State)
@[simp] theorem resetRegisters_irqEn : (resetRegisters s).irqEn = false := rfl
@[simp] theorem resetRegisters_status : (resetRegisters s).status = Status.reset := rfl
@[simp] theorem resetRegisters_src : (resetRegisters s).src = 0#32 := rfl
@[simp] theorem resetRegisters_dst : (resetRegisters s).dst = 0#32 := rfl
@[simp] theorem resetRegisters_len : (resetRegisters s).len = 0#32 := rfl
@[simp] theorem resetRegisters_width : (resetRegisters s).width = 0#32 := rfl
@[simp] theorem resetRegisters_height : (resetRegisters s).height = 0#32 := rfl
@[simp] theorem resetRegisters_arg : (resetRegisters s).arg = 0#32 := rfl
@[simp] theorem resetRegisters_result : (resetRegisters s).result = 0#32 := rfl
@[simp] theorem resetRegisters_crcState : (resetRegisters s).crcState = Config.crcInit := rfl
@[simp] theorem resetRegisters_lmemAddr : (resetRegisters s).lmemAddr = 0#32 := rfl
@[simp] theorem resetRegisters_memSize : (resetRegisters s).memSize = s.memSize := rfl
@[simp] theorem resetRegisters_op : (resetRegisters s).op = Latch.empty := rfl
@[simp] theorem resetRegisters_lmem : (resetRegisters s).lmem = s.lmem := rfl
@[simp] theorem resetRegisters_hostQueue : (resetRegisters s).hostQueue = s.hostQueue := rfl
@[simp] theorem resetRegisters_held : (resetRegisters s).held = s.held := rfl
@[simp] theorem resetRegisters_responses : (resetRegisters s).responses = s.responses := rfl
@[simp] theorem resetRegisters_schedule : (resetRegisters s).schedule = s.schedule := rfl
@[simp] theorem resetRegisters_freeDraws : (resetRegisters s).freeDraws = s.freeDraws := rfl
end resetRegisters

section raiseFault
variable (cmd : Option Instr) (code : FaultCode) (s : State)
@[simp] theorem raiseFault_irqEn : (raiseFault cmd code s).irqEn = s.irqEn := rfl
@[simp] theorem raiseFault_src : (raiseFault cmd code s).src = s.src := rfl
@[simp] theorem raiseFault_dst : (raiseFault cmd code s).dst = s.dst := rfl
@[simp] theorem raiseFault_len : (raiseFault cmd code s).len = s.len := rfl
@[simp] theorem raiseFault_width : (raiseFault cmd code s).width = s.width := rfl
@[simp] theorem raiseFault_height : (raiseFault cmd code s).height = s.height := rfl
@[simp] theorem raiseFault_arg : (raiseFault cmd code s).arg = s.arg := rfl
@[simp] theorem raiseFault_result : (raiseFault cmd code s).result = s.result := rfl
@[simp] theorem raiseFault_crcState : (raiseFault cmd code s).crcState = s.crcState := rfl
@[simp] theorem raiseFault_lmemAddr : (raiseFault cmd code s).lmemAddr = s.lmemAddr := rfl
@[simp] theorem raiseFault_memSize : (raiseFault cmd code s).memSize = s.memSize := rfl
@[simp] theorem raiseFault_op : (raiseFault cmd code s).op = s.op := rfl
@[simp] theorem raiseFault_lmem : (raiseFault cmd code s).lmem = s.lmem := rfl
@[simp] theorem raiseFault_hostQueue : (raiseFault cmd code s).hostQueue = s.hostQueue := rfl
@[simp] theorem raiseFault_held : (raiseFault cmd code s).held = s.held := rfl
@[simp] theorem raiseFault_responses : (raiseFault cmd code s).responses = s.responses := rfl
@[simp] theorem raiseFault_schedule : (raiseFault cmd code s).schedule = s.schedule := rfl
@[simp] theorem raiseFault_freeDraws : (raiseFault cmd code s).freeDraws = s.freeDraws := rfl
end raiseFault

section acknowledge
variable (v : Word) (s : State)
@[simp] theorem acknowledge_irqEn : (acknowledge v s).irqEn = s.irqEn := rfl
@[simp] theorem acknowledge_status : (acknowledge v s).status = s.status.hostWrite v := rfl
@[simp] theorem acknowledge_src : (acknowledge v s).src = s.src := rfl
@[simp] theorem acknowledge_dst : (acknowledge v s).dst = s.dst := rfl
@[simp] theorem acknowledge_len : (acknowledge v s).len = s.len := rfl
@[simp] theorem acknowledge_width : (acknowledge v s).width = s.width := rfl
@[simp] theorem acknowledge_height : (acknowledge v s).height = s.height := rfl
@[simp] theorem acknowledge_arg : (acknowledge v s).arg = s.arg := rfl
@[simp] theorem acknowledge_result : (acknowledge v s).result = s.result := rfl
@[simp] theorem acknowledge_crcState : (acknowledge v s).crcState = s.crcState := rfl
@[simp] theorem acknowledge_lmemAddr : (acknowledge v s).lmemAddr = s.lmemAddr := rfl
@[simp] theorem acknowledge_memSize : (acknowledge v s).memSize = s.memSize := rfl
@[simp] theorem acknowledge_op : (acknowledge v s).op = s.op := rfl
@[simp] theorem acknowledge_lmem : (acknowledge v s).lmem = s.lmem := rfl
@[simp] theorem acknowledge_hostQueue : (acknowledge v s).hostQueue = s.hostQueue := rfl
@[simp] theorem acknowledge_held : (acknowledge v s).held = s.held := rfl
@[simp] theorem acknowledge_responses : (acknowledge v s).responses = s.responses := rfl
@[simp] theorem acknowledge_schedule : (acknowledge v s).schedule = s.schedule := rfl
@[simp] theorem acknowledge_freeDraws : (acknowledge v s).freeDraws = s.freeDraws := rfl
end acknowledge

end Sys2Proof.Machine
end

