-- ==== Sys2Proof/Laws/Status.lean ====
section
/-! SUPPORT. The fields of `STATUS` after each operation on it. -/

namespace Sys2Proof.Machine

variable (t : Status) (c : FaultCode) (o : Byte) (b : Bool) (v : Word)

@[simp] theorem Status.accept_eq : t.accept = { t with busy := true, done := false } := rfl

@[simp] theorem Status.complete_eq : t.complete = { t with busy := false, done := true } := rfl

@[simp] theorem Status.recordFault_eq :
    t.recordFault c o = { t with err := true, errCode := c.code, errOp := o } := rfl

@[simp] theorem Status.setInteg_eq : t.setInteg b = { t with integOk := b } := rfl

/-- A host write of `STATUS`, field by field (10_state.md R24). -/
theorem Status.hostWrite_eq :
    t.hostWrite v =
      { busy := t.busy
        done := if v.getLsbD 1 then false else t.done
        err := if v.getLsbD 2 then false else t.err
        integOk := t.integOk
        errCode := if v.getLsbD 2 then 0#8 else t.errCode
        errOp := if v.getLsbD 2 then 0#8 else t.errOp } := by
  unfold Status.hostWrite Status.clearFault
  split <;> split <;> simp_all

@[simp] theorem Status.hostWrite_busy : (t.hostWrite v).busy = t.busy := by
  simp [Status.hostWrite_eq]

@[simp] theorem Status.hostWrite_integOk : (t.hostWrite v).integOk = t.integOk := by
  simp [Status.hostWrite_eq]

/-- Taking a fault writes `STATUS` only (60_exceptions.md R248). -/
theorem raiseFault_status (cmd : Option Instr) (code : FaultCode) (s : State) :
    (raiseFault cmd code s).status =
      { s.status with
        err := true
        errCode := code.code
        errOp := opField s.op.word
        integOk := if cmd = some .frameCheck then false else s.status.integOk } := by
  unfold raiseFault
  simp only [State.setStatus]
  split <;> simp

theorem raiseFault_eq (cmd : Option Instr) (code : FaultCode) (s : State) :
    raiseFault cmd code s = { s with status := (raiseFault cmd code s).status } := rfl

/-- `STATUS` as a number (10_state.md R24). -/
theorem Status.toWord_eq : t.toWord = BitVec.ofNat 32
    (t.busy.toNat + 2 * t.done.toNat + 4 * t.err.toNat + 8 * t.integOk.toNat
      + 2 ^ 8 * t.errCode.toNat + 2 ^ 16 * t.errOp.toNat) := by
  apply BitVec.eq_of_toNat_eq
  obtain ⟨b, d, e, i, c, o⟩ := t
  have := c.isLt
  have := o.isLt
  simp only [Status.toWord, BitVec.toNat_append, BitVec.toNat_ofBool]
  rw [← Nat.shiftLeft_add_eq_or_of_lt (by cases b <;> decide),
    ← Nat.shiftLeft_add_eq_or_of_lt (by cases d <;> decide),
    ← Nat.shiftLeft_add_eq_or_of_lt (by cases e <;> decide),
    ← Nat.shiftLeft_add_eq_or_of_lt (by cases i <;> decide),
    ← Nat.shiftLeft_add_eq_or_of_lt (by decide), ← Nat.shiftLeft_add_eq_or_of_lt (by omega),
    ← Nat.shiftLeft_add_eq_or_of_lt (by omega)]
  simp only [Nat.shiftLeft_eq, BitVec.toNat_ofNat]
  cases b <;> cases d <;> cases e <;> cases i <;> simp [Bool.toNat] <;> omega

end Sys2Proof.Machine
end

