-- ==== Sys2Proof/Laws/Checks.lean ====
section
/-! SUPPORT. What the checks of a command decide, what the two ways to go on after a read do, and the csqrt
of 44_pixel_pack.md R194. -/

namespace Sys2Proof.Machine

/-! ### Ranges -/

theorem Range.inLmem_iff (r : Range) (size : Nat) :
    r.inLmem size = true ↔ InLmem size r.base r.size := by
  simp [Range.inLmem, InLmem]

theorem Range.overlaps_iff (r t : Range) :
    r.overlaps t = true ↔ Overlap r.base r.size t.base t.size := by
  simp [Range.overlaps, Overlap, and_assoc]

theorem rangeOk_some (r : Range) (size : Nat) :
    rangeOk (some r) size = true ↔ InLmem size r.base r.size := r.inLmem_iff size

@[simp] theorem rangeOk_none (size : Nat) : rangeOk none size = true := rfl

theorem rangesOverlap_some (r t : Range) :
    rangesOverlap (some r) (some t) = true ↔ Overlap r.base r.size t.base t.size := r.overlaps_iff t

@[simp] theorem rangesOverlap_none_right (r : Option Range) : rangesOverlap r none = false := by
  cases r <;> rfl

/-- No check fails exactly when all of them pass (60_exceptions.md R247). -/
theorem firstFault_eq_none {i : Instr} {op : Latch} {size : Nat} :
    firstFault i op size = none ↔
      ¬(i = .frameBuild ∧ Config.lenCeiling ≤ op.count) ∧ rangeOk (srcRange i op) size = true ∧
        rangeOk (dstRange i op) size = true ∧ rangesOverlap (srcRange i op) (dstRange i op) = false := by
  unfold firstFault
  split
  · simp_all
  · split
    · simp_all
    · split
      · simp_all
      · split <;> simp_all

/-- The fault of a failing check is one the command raises (60_exceptions.md R241). -/
theorem firstFault_raisedBy {i : Instr} {op : Latch} {size : Nat} {c : FaultCode}
    (h : firstFault i op size = some c) : RaisedBy c.code (opcode i) := by
  unfold firstFault at h
  split at h
  · rename_i hl
    cases h
    exact .inr (.inr (.inr (.inl ⟨rfl, by rw [hl.1]; rfl⟩)))
  · split at h
    · rename_i hr
      cases h
      refine .inr (.inl ⟨rfl, ?_⟩)
      cases i <;> first | exact absurd rfl hr | decide
    · split at h
      · rename_i hr
        cases h
        refine .inr (.inl ⟨rfl, ?_⟩)
        cases i <;> first | exact absurd rfl hr | decide
      · split at h
        · rename_i hr
          cases h
          refine .inr (.inr (.inl ⟨rfl, ?_⟩))
          cases i <;> first | decide | exact absurd hr (by simp [srcRange, dstRange, rangesOverlap])
        · cases h

/-! ### The template of a command -/

theorem withChecks_of_none {i : Instr} {s : State} {e : Result}
    (h : firstFault i s.op s.memSize.toNat = none) : withChecks i s e = e := by
  simp [withChecks, h]

theorem withChecks_of_some {i : Instr} {s : State} {e : Result} {c : FaultCode}
    (h : firstFault i s.op s.memSize.toNat = some c) :
    withChecks i s e = .next (raiseFault (some i) c s) := by
  simp [withChecks, h]

/-- A command that goes on has either recorded the fault of its first failing check, or passed every
check and answered by its effects. -/
theorem withChecks_next {i : Instr} {s t : State} {e : Result} (h : withChecks i s e = .next t) :
    (∃ c, firstFault i s.op s.memSize.toNat = some c ∧ t = raiseFault (some i) c s) ∨
      (firstFault i s.op s.memSize.toNat = none ∧ e = .next t) := by
  unfold withChecks at h
  split at h
  · rename_i c hc
    cases h
    exact .inl ⟨c, hc, rfl⟩
  · exact .inr ⟨‹_›, h⟩

/-- What a recorded fault changes, in the words of 60_exceptions.md R248. -/
theorem raiseFault_some (i : Instr) (c : FaultCode) (s : State) :
    raiseFault (some i) c s = s.faultRecorded i c.code := by
  rw [raiseFault_eq, raiseFault_status]
  simp [State.faultRecorded, opField]

theorem withBytes_next {bs : Option (List Byte)} {k : List Byte → Result} {t : State}
    (h : withBytes bs k = .next t) : ∃ l, bs = some l ∧ k l = .next t := by
  cases bs with
  | none => cases h
  | some l => exact ⟨l, rfl, h⟩

theorem withBytes_fault {bs : Option (List Byte)} {k : List Byte → Result} {r : Fault}
    (h : withBytes bs k = .fault r) (hk : ∀ l, k l ≠ .fault r) : bs = none ∧ r = .unwrittenByte := by
  cases bs with
  | none => cases h; exact ⟨rfl, rfl⟩
  | some l => exact absurd h (hk l)

@[simp] theorem withBytes_some (l : List Byte) (k : List Byte → Result) : withBytes (some l) k = k l :=
  rfl

@[simp] theorem onNext_next (f : State → State) (s : State) : onNext f (.next s) = .next (f s) := rfl

theorem onNext_eq_next {f : State → State} {r : Result} {t : State} (h : onNext f r = .next t) :
    ∃ u, r = .next u ∧ t = f u := by
  cases r with
  | next u => cases h; exact ⟨u, rfl, rfl⟩
  | fault _ => cases h
  | refused _ => cases h

/-! ### csqrt -/

theorem rootBelow_spec (n k r : Nat) (hr : r * r < n) (hk : n ≤ (r + 2 ^ k) * (r + 2 ^ k)) :
    rootBelow n k r * rootBelow n k r < n ∧ n ≤ (rootBelow n k r + 1) * (rootBelow n k r + 1) := by
  induction k generalizing r with
  | zero => exact ⟨hr, by simpa [rootBelow] using hk⟩
  | succ k ih =>
    rw [rootBelow]
    split
    · rename_i hlt
      refine ih _ hlt ?_
      rwa [Nat.add_assoc, ← Nat.two_mul, ← Nat.pow_succ']
    · exact ih r hr (by omega)

/-- `csqrt(n)` is the least number whose square is at least `n` (44_pixel_pack.md R194). -/
theorem csqrt_spec (n : Nat) : n ≤ csqrt n * csqrt n ∧ ∀ t, n ≤ t * t → csqrt n ≤ t := by
  unfold csqrt
  split
  · subst n
    simp
  · rename_i hn
    have hlog : n < 2 ^ (n.log2 + 1) := Nat.lt_log2_self
    have := rootBelow_spec n (n.log2 + 1) 0 (by omega) (by rw [Nat.zero_add]; nlinarith)
    refine ⟨this.2, fun t ht => ?_⟩
    by_contra hlt
    have : t ≤ rootBelow n (n.log2 + 1) 0 := by omega
    have := Nat.mul_le_mul this this
    omega

/-! ### A command with two ranges, and one with none to write -/

/-- Both ranges in LMEM and apart from each other: no check fails. -/
theorem firstFault_of_ranges {i : Instr} {op : Latch} {size : Nat} {q r : Range}
    (hl : i = .frameBuild → op.count < Config.lenCeiling)
    (hq : srcRange i op = some q) (hr : dstRange i op = some r) (h₁ : InLmem size q.base q.size)
    (h₂ : InLmem size r.base r.size) (h₃ : ¬ Overlap q.base q.size r.base r.size) :
    firstFault i op size = none := by
  rw [firstFault_eq_none, hq, hr]
  refine ⟨fun ⟨hi, hc⟩ => ?_, (rangeOk_some _ _).2 h₁, (rangeOk_some _ _).2 h₂, ?_⟩
  · exact absurd (hl hi) (Nat.not_lt.2 hc)
  · rw [← Bool.not_eq_true, rangesOverlap_some]
    exact h₃

/-- A source range in LMEM and no destination range: no check fails. -/
theorem firstFault_of_source {i : Instr} {op : Latch} {size : Nat} {q : Range}
    (hq : srcRange i op = some q) (hr : dstRange i op = none) (h₁ : InLmem size q.base q.size) :
    firstFault i op size = none := by
  rw [firstFault_eq_none, hq, hr]
  refine ⟨?_, (rangeOk_some _ _).2 h₁, rfl, rangesOverlap_none_right _⟩
  rintro ⟨rfl, -⟩
  cases hr

end Sys2Proof.Machine
end

