-- ==== Sys2Proof/Laws/Crc.lean ====
section
/-! SUPPORT. The CRC as a function: by pieces, and one-to-one in the register and in each byte. -/

namespace Sys2Proof.Machine

@[simp] theorem crcUpdate_nil (c : Word) : crcUpdate c [] = c := rfl

@[simp] theorem crcUpdate_cons (c : Word) (b : Byte) (bs : List Byte) :
    crcUpdate c (b :: bs) = crcUpdate (crcStep c b) bs := rfl

/-- Bit 31 of the polynomial tells which way a shift went. -/
theorem crcShift_msb (c : Word) : (crcShift c).getLsbD 31 = c.getLsbD 0 := by
  have : Config.crcPoly.getLsbD 31 = true := by decide
  unfold crcShift
  split <;> simp_all

theorem crcShift_injective : Function.Injective crcShift := by
  intro c d h
  have h₀ : c.getLsbD 0 = d.getLsbD 0 := by rw [← crcShift_msb, ← crcShift_msb, h]
  have hs : c >>> 1 = d >>> 1 := by
    unfold crcShift at h
    rw [h₀] at h
    split at h
    · simpa [BitVec.xor_assoc] using congrArg (· ^^^ Config.crcPoly) h
    · exact h
  apply BitVec.eq_of_getLsbD_eq
  intro i hi
  cases i with
  | zero => exact h₀
  | succ j =>
    have := congrArg (fun x => x.getLsbD j) hs
    simpa [BitVec.getLsbD_ushiftRight, Nat.add_comm] using this

/-- One byte never merges two CRC registers. -/
theorem crcStep_left_injective (b : Byte) : Function.Injective (fun c => crcStep c b) := by
  intro c d h
  have := congrArg (· ^^^ b.setWidth 32) (crcShift_injective.iterate 8 h)
  simpa [BitVec.xor_assoc] using this

/-- From one CRC register, two different bytes lead to two different registers. -/
theorem crcStep_right_injective (c : Word) : Function.Injective (crcStep c) := by
  intro a b h
  have := congrArg (c ^^^ ·) (crcShift_injective.iterate 8 h)
  simp only [← BitVec.xor_assoc, BitVec.xor_self, BitVec.zero_xor] at this
  apply BitVec.eq_of_toNat_eq
  have := congrArg BitVec.toNat this
  have ha := a.isLt
  have hb := b.isLt
  simpa [Nat.mod_eq_of_lt (show a.toNat < 4294967296 by omega),
    Nat.mod_eq_of_lt (show b.toNat < 4294967296 by omega)] using this

theorem crcUpdate_left_injective (bs : List Byte) : Function.Injective (fun c => crcUpdate c bs) := by
  induction bs with
  | nil => exact fun _ _ h => h
  | cons b bs ih => exact fun _ _ h => crcStep_left_injective b (ih h)

end Sys2Proof.Machine
end

