-- ==== Sys2Proof/Laws/Decode.lean ====
section
/-! SUPPORT. What the decoder accepts (30_encoding.md R95). -/

namespace Sys2Proof

theorem opField_toNat (w : Word) : (opField w).toNat = w.toNat % 256 := by
  simp [opField, BitVec.extractLsb'_toNat]

theorem rsvdField_toNat (w : Word) : (rsvdField w).toNat = w.toNat / 256 := by
  have := w.isLt
  simp only [rsvdField, BitVec.extractLsb'_toNat, Nat.shiftRight_eq_div_pow]
  omega

theorem decodeOp_opcode (i : Instr) : decodeOp (opcode i) = some i := by
  cases i <;> rfl

/-- A row of a table written as a chain of tests: this row, or a later one. -/
theorem row_or_later {α : Type} {c : Prop} [Decidable c] {a i : α} {r : Option α}
    (h : (if c then some a else r) = some i) : (c ∧ a = i) ∨ r = some i := by
  split at h
  · cases h
    exact .inl ⟨‹_›, rfl⟩
  · exact .inr h

theorem opcode_of_decodeOp {op : Byte} {i : Instr} (h : decodeOp op = some i) : op = opcode i := by
  unfold decodeOp at h
  iterate 13
    rcases row_or_later h with ⟨rfl, rfl⟩ | h
    · rfl
  cases h

/-- `decode` answers a command exactly for its opcode with `RSVD` = 0. -/
theorem decode_eq_ok {w : Word} {i : Instr} :
    decode w = .ok i ↔ rsvdField w = 0#24 ∧ opField w = opcode i := by
  unfold decode
  split
  · simp_all
  · rename_i hr
    constructor
    · intro h
      split at h
      · cases h
      · cases h
        exact ⟨not_not.1 hr, opcode_of_decodeOp ‹_›⟩
    · rintro ⟨-, h⟩
      rw [h, decodeOp_opcode]

end Sys2Proof
end

