-- ==== Sys2Proof/Laws/Exec.lean ====
section
/-! SUPPORT. Once and for all commands: what `exec` can answer, and what it leaves unchanged. -/

namespace Sys2Proof.Machine

/-- What a command that recorded no fault may have changed: `RESULT`, `CRC_STATE`, `INTEG_OK` (FRAME_CHECK
only) and the bytes of its destination range. -/
structure Effects (i : Instr) (s t : State) : Prop where
  frame : t = { s with
    status := { s.status with integOk := t.status.integOk }
    result := t.result
    crcState := t.crcState
    lmem := t.lmem }
  integ : i ≠ .frameCheck → t.status.integOk = s.status.integOk
  lmem : t.lmem = s.lmem ∨ ∃ r bs, dstRange i s.op = some r ∧ bs.length = r.size ∧
    InLmem s.memSize.toNat r.base r.size ∧ t.lmem = s.lmem.writeBytes r.base bs

theorem Effects.refl (i : Instr) (s : State) : Effects i s s := ⟨rfl, fun _ => rfl, .inl rfl⟩

theorem Effects.of_store {i : Instr} {s t : State} {r : Range} {bs : List Byte}
    (hf : firstFault i s.op s.memSize.toNat = none) (hr : dstRange i s.op = some r)
    (hl : bs.length = r.size) (hm : t.lmem = s.lmem.writeBytes r.base bs)
    (ht : t = { s with result := t.result, crcState := t.crcState, lmem := t.lmem }) :
    Effects i s t := by
  refine ⟨?_, fun _ => ?_, .inr ⟨r, bs, hr, hl, ?_, hm⟩⟩
  · rw [ht]
  · rw [ht]
  · have := (firstFault_eq_none.1 hf).2.2.1
    rw [hr, rangeOk_some] at this
    exact this

theorem Effects.of_regs {i : Instr} {s t : State}
    (ht : t = { s with result := t.result, crcState := t.crcState }) : Effects i s t :=
  ⟨by rw [ht], fun _ => by rw [ht], .inl (by rw [ht])⟩

/-- What `exec` answers when it answers a next state: a recorded fault that the command raises, or the
command's effects. -/
theorem exec_next {i : Instr} {s t : State} (h : exec i s = .next t) :
    (∃ c, RaisedBy c.code (opcode i) ∧ t = raiseFault (some i) c s) ∨ Effects i s t := by
  have raised : ∀ {c}, firstFault i s.op s.memSize.toNat = some c → t = raiseFault (some i) c s →
      ∃ c, RaisedBy c.code (opcode i) ∧ t = raiseFault (some i) c s :=
    fun hc ht => ⟨_, firstFault_raisedBy hc, ht⟩
  cases i with
  | nop => cases h; exact .inr (.refl _ _)
  | crcInit | crcByte | quant | dequant => cases h; exact .inr (.of_regs rfl)
  | crcUpdate =>
    rcases withChecks_next h with ⟨c, hc, ht⟩ | ⟨hf, he⟩
    · exact .inl (raised hc ht)
    · obtain ⟨l, -, hk⟩ := withBytes_next he
      cases hk
      exact .inr (.of_regs rfl)
  | pack | canvas | unpack | upscale2x | frameBuild =>
    rcases withChecks_next h with ⟨c, hc, ht⟩ | ⟨hf, he⟩
    · exact .inl (raised hc ht)
    · obtain ⟨l, hl, hk⟩ := withBytes_next he
      have := (Memory.holds_of_readBytes hl).1
      cases hk
      exact .inr (.of_store hf rfl (by simp [this]) rfl rfl)
  | downscale2x =>
    rcases withChecks_next h with ⟨c, hc, ht⟩ | ⟨hf, he⟩
    · exact .inl (raised hc ht)
    · obtain ⟨l, hl, hk⟩ := withBytes_next he
      have := downscaleRead_length hl
      cases hk
      exact .inr (.of_store hf rfl this rfl rfl)
  | frameCheck =>
    have malformed : RaisedBy FaultCode.malformed.code (opcode .frameCheck) :=
      .inr (.inr (.inr (.inr ⟨rfl, rfl⟩)))
    rcases withChecks_next h with ⟨c, hc, ht⟩ | ⟨hf, he⟩
    · exact .inl (raised hc ht)
    · split at he
      · cases he
        exact .inl ⟨_, malformed, rfl⟩
      · obtain ⟨hdr, -, hk⟩ := withBytes_next he
        dsimp only at hk
        split at hk
        · cases hk
          exact .inl ⟨_, malformed, rfl⟩
        · obtain ⟨body, -, hb⟩ := withBytes_next hk
          cases hb
          exact .inr ⟨rfl, fun hne => absurd rfl hne, .inl rfl⟩

/-- The fields no command writes (40_control.md R113), whether it records a fault or not. -/
theorem exec_frame {i : Instr} {s t : State} (h : exec i s = .next t) :
    t = { s with
      status := t.status
      result := t.result
      crcState := t.crcState
      lmem := t.lmem } := by
  rcases exec_next h with ⟨c, -, rfl⟩ | he
  · rfl
  · rw [he.frame]

theorem exec_busy {i : Instr} {s t : State} (h : exec i s = .next t) :
    t.status.busy = s.status.busy ∧ t.status.done = s.status.done := by
  rcases exec_next h with ⟨c, -, rfl⟩ | he
  · simp [raiseFault_status]
  · rw [he.frame]
    exact ⟨rfl, rfl⟩

/-- No command stops but for an LMEM byte that has no value, and none is refused. -/
theorem exec_stops {i : Instr} {s : State} (h : ∀ t, exec i s ≠ .next t) :
    exec i s = .fault .unwrittenByte := by
  have hw : ∀ {o : Option (List Byte)} {k : List Byte → Result}, (∀ t, withBytes o k ≠ .next t) →
      (∀ l, (∀ t, k l ≠ .next t) → k l = .fault .unwrittenByte) →
      withBytes o k = .fault .unwrittenByte := by
    intro o k ho hk
    cases o with
    | none => rfl
    | some l => exact hk l ho
  have hc : ∀ {e : Result}, (∀ t, withChecks i s e ≠ .next t) →
      ((∀ t, e ≠ .next t) → e = .fault .unwrittenByte) →
      withChecks i s e = .fault .unwrittenByte := by
    intro e he hk
    unfold withChecks at he ⊢
    split at he
    · exact absurd rfl (he _)
    · rename_i hf
      simpa [hf] using hk he
  cases i with
  | nop | crcInit | crcByte | quant | dequant => exact absurd rfl (h _)
  | crcUpdate | pack | canvas | unpack | upscale2x | downscale2x | frameBuild =>
    exact hc h fun he => hw he fun l hl => absurd rfl (hl _)
  | frameCheck =>
    refine hc h fun he => ?_
    split at he
    · exact absurd rfl (he _)
    · rename_i hlen
      rw [if_neg hlen]
      refine hw he fun hdr hh => ?_
      dsimp only at hh ⊢
      split at hh
      · exact absurd rfl (hh _)
      · rename_i hd
        rw [if_neg hd]
        exact hw hh fun b hb => absurd rfl (hb _)

end Sys2Proof.Machine
end

