-- ==== Sys2Proof/Laws/PerInstr.lean ====
section
/-! SUPPORT. Per command: its word is well formed, and its fields are the ones 30_encoding.md R90 and R94
give it. -/

namespace Sys2Proof.Laws.Encoding

/-- The word of a command is well formed, has `RSVD` = 0 and an `OP` that the opcode map gives this
command. -/
def Statement (i : Instr) : Prop :=
  wordWf (encode i) = true ∧ rsvdField (encode i) = 0#24 ∧ decodeOp (opField (encode i)) = some i

theorem nop : Statement .nop := by
  unfold Statement
  decide

theorem crcInit : Statement .crcInit := by
  unfold Statement
  decide

theorem crcUpdate : Statement .crcUpdate := by
  unfold Statement
  decide

theorem crcByte : Statement .crcByte := by
  unfold Statement
  decide

theorem quant : Statement .quant := by
  unfold Statement
  decide

theorem dequant : Statement .dequant := by
  unfold Statement
  decide

theorem pack : Statement .pack := by
  unfold Statement
  decide

theorem canvas : Statement .canvas := by
  unfold Statement
  decide

theorem unpack : Statement .unpack := by
  unfold Statement
  decide

theorem upscale2x : Statement .upscale2x := by
  unfold Statement
  decide

theorem downscale2x : Statement .downscale2x := by
  unfold Statement
  decide

theorem frameBuild : Statement .frameBuild := by
  unfold Statement
  decide

theorem frameCheck : Statement .frameCheck := by
  unfold Statement
  decide

end Sys2Proof.Laws.Encoding
end

