-- ==== Sys2Proof/Laws/Reset.lean ====
section
/-! SUPPORT. What the parts of a hardware reset leave unchanged (70_reset_and_hazards.md R271, R272). -/

namespace Sys2Proof.Machine

/-- Abandoning a command writes LMEM bytes and draws free values, nothing else. -/
theorem abandonCommand_frame (s : State) :
    abandonCommand s =
      { s with lmem := (abandonCommand s).lmem, freeDraws := (abandonCommand s).freeDraws } := by
  unfold abandonCommand
  split <;> rfl

/-- Ending a held access touches the host's queue and responses only. -/
theorem endHeldAccess_frame (s : State) :
    endHeldAccess s =
      { s with
        hostQueue := (endHeldAccess s).hostQueue
        held := (endHeldAccess s).held
        responses := (endHeldAccess s).responses
        freeDraws := (endHeldAccess s).freeDraws } := by
  unfold endHeldAccess
  split <;> rfl

theorem endHeldAccess_of_not_held {s : State} (h : s.held = false) : endHeldAccess s = s := by
  simp [endHeldAccess, h]

@[simp] theorem endHeldAccess_held (s : State) : (endHeldAccess s).held = false := by
  unfold endHeldAccess
  split
  · rfl
  · simp_all

@[simp] theorem abandonCommand_held (s : State) : (abandonCommand s).held = s.held := by
  rw [abandonCommand_frame]

@[simp] theorem abandonCommand_hostQueue (s : State) : (abandonCommand s).hostQueue = s.hostQueue := by
  rw [abandonCommand_frame]

@[simp] theorem abandonCommand_memSize (s : State) : (abandonCommand s).memSize = s.memSize := by
  rw [abandonCommand_frame]

@[simp] theorem endHeldAccess_memSize (s : State) : (endHeldAccess s).memSize = s.memSize := by
  rw [endHeldAccess_frame]

@[simp] theorem endHeldAccess_lmem (s : State) : (endHeldAccess s).lmem = s.lmem := by
  rw [endHeldAccess_frame]

/-- LMEM after a hardware reset. -/
theorem hardwareReset_lmem (s : State) :
    (hardwareReset s).lmem = if s.status.busy then (abandonCommand s).lmem else s.lmem := by
  unfold hardwareReset
  rw [resetRegisters_lmem, endHeldAccess_lmem]
  split <;> rfl

/-- `MEMSIZE` stays (70_reset_and_hazards.md R275). -/
@[simp] theorem hardwareReset_memSize (s : State) : (hardwareReset s).memSize = s.memSize := by
  unfold hardwareReset
  rw [resetRegisters_memSize, endHeldAccess_memSize]
  split
  · exact abandonCommand_memSize s
  · rfl

@[simp] theorem hardwareReset_held (s : State) : (hardwareReset s).held = false := by
  unfold hardwareReset
  rw [resetRegisters_held, endHeldAccess_held]

/-- With no access held, the host's next accesses stay. -/
theorem hardwareReset_hostQueue {s : State} (h : s.held = false) :
    (hardwareReset s).hostQueue = s.hostQueue := by
  unfold hardwareReset
  split
  · rw [resetRegisters_hostQueue, endHeldAccess_of_not_held (by simpa using h)]
    exact abandonCommand_hostQueue s
  · rw [resetRegisters_hostQueue, endHeldAccess_of_not_held h]

end Sys2Proof.Machine
end

