-- ==== Sys2Proof/Laws/Step.lean ====
section
/-! SUPPORT. What one step can do: an inversion lemma for the host's accesses and one for the step. -/

namespace Sys2Proof.Machine

/-! ### The step, by whose turn it is -/

theorem step_host {s : State} (h : (nextTurn s).1 = .host) :
    step s = hostTurn { s with schedule := (nextTurn s).2 } := by
  simp [step, h, takeTurn]

theorem step_engine {s : State} (h : (nextTurn s).1 = .engine) :
    step s = engineTurn { s with schedule := (nextTurn s).2 } := by
  simp [step, h, takeTurn]

theorem step_hwReset {s : State} (h : (nextTurn s).1 = .hwReset) :
    step s = .next (hardwareReset { s with schedule := (nextTurn s).2 }) := by
  simp [step, h, takeTurn]

/-! ### The register window -/

theorem regAt_regOffset (r : Reg) : regAt (regOffset r) = some r := by
  cases r <;> rfl

theorem regOffset_of_regAt {off : Nat} {r : Reg} (h : regAt off = some r) : off = regOffset r := by
  unfold regAt at h
  iterate 16
    rcases row_or_later h with ⟨rfl, rfl⟩ | h
    · rfl
  cases h

/-- Every multiple of 4 below 0x40 is the offset of a register (20_memory.md R70). -/
theorem regAt_isSome {off : Nat} (h4 : off % 4 = 0) (h : off < 0x40) : ∃ r, regAt off = some r := by
  obtain ⟨k, rfl⟩ : ∃ k, off = 4 * k := ⟨off / 4, by omega⟩
  have hk : k < 16 := by omega
  interval_cases k <;> exact ⟨_, rfl⟩

theorem accessTarget_regOffset (r : Reg) (k : AccessKind) :
    accessTarget ⟨regOffset r, 32, k⟩ = some r := by
  have hw : Access.wf ⟨regOffset r, 32, k⟩ = true := by
    cases r <;> simp [Access.wf, Access.widthOk, Access.alignedOk, Access.mappedOk, regOffset]
  rw [accessTarget, if_pos hw, regAt_regOffset]

theorem accessTarget_eq_some {a : Access} {r : Reg} (h : accessTarget a = some r) :
    a = ⟨regOffset r, 32, a.kind⟩ := by
  unfold accessTarget at h
  split at h
  · rename_i hw
    obtain ⟨off, width, kind⟩ := a
    have := regOffset_of_regAt h
    simp_all [Access.wf, Access.widthOk]
  · cases h

/-- An ill-formed access reaches no register (60_exceptions.md R251). -/
theorem accessTarget_eq_none {a : Access} (h : a.width ≠ 32 ∨ a.offset % 4 ≠ 0 ∨ 0x40 ≤ a.offset) :
    accessTarget a = none := by
  unfold accessTarget
  rw [if_neg]
  simp only [Access.wf, Access.widthOk, Access.alignedOk, Access.mappedOk]
  rcases h with h | h | h <;> simp [h]

/-- An access that completes without touching a held access is answered by `hostAccess`. -/
theorem step_access {s : State} {a : Access} {rest : List Access} (h : s.HostMakes a rest)
    (hh : s.status.busy = false ∨ holdable a = false) :
    step s = hostAccess a
      { s with schedule := (nextTurn s).2, hostQueue := rest, held := false } := by
  rw [step_host h.1]
  unfold hostTurn
  simp only [h.2]
  rw [if_neg]
  rcases hh with hb | hb <;> simp [hb]

/-- A register access of the host (`hostRead` or `hostWrite` of the register it reaches). -/
theorem hostAccess_reg (r : Reg) (k : AccessKind) (s : State) :
    hostAccess ⟨regOffset r, 32, k⟩ s =
      match k with
      | .read => hostRead r s
      | .write v => hostWrite r v s := by
  have h := accessTarget_regOffset r k
  cases k <;> simp only [hostAccess, h]

/-- What a host access that ends leaves, by what it did. -/
inductive AccessEffect (a : Access) (s t : State) : Prop where
  /-- A bus error, a read without side effect, or an ignored write. -/
  | none (r : Response) (h : t = s.respond r)
  /-- A read of the port. -/
  | portRead (b : Byte) (hin : s.portInLmem = true) (hb : s.lmem.read s.lmemAddr.toNat = some b)
      (h : t = s.advancePort.respond (.data (b.setWidth 32)))
  /-- A write of the port. -/
  | portWrite (v : Word) (hin : s.portInLmem = true) (ha : a = ⟨0x38, 32, .write v⟩)
      (h : t = ((s.store s.lmemAddr.toNat [v.extractLsb' 0 8]).advancePort).respond .written)
  /-- A write of `CTRL`. -/
  | ctrl (v : Word) (ha : a = ⟨0x04, 32, .write v⟩) (h : t = (writeCtrl v s).respond .written)
  /-- A write of `STATUS`. -/
  | status (v : Word) (ha : a = ⟨0x08, 32, .write v⟩) (h : t = (acknowledge v s).respond .written)
  /-- A write of `CMD`. -/
  | cmd (v : Word) (ha : a = ⟨0x0C, 32, .write v⟩) (h : t = (s.accept v).respond .written)
  /-- A write of a stored register. -/
  | reg (h : t = { s with
      src := t.src, dst := t.dst, len := t.len, width := t.width, height := t.height, arg := t.arg
      crcState := t.crcState, lmemAddr := t.lmemAddr, responses := t.responses })

theorem hostAccess_next {a : Access} {s t : State} (h : hostAccess a s = .next t) :
    AccessEffect a s t := by
  unfold hostAccess at h
  split at h
  · cases h
    exact .none _ rfl
  · rename_i r hr
    have ha := accessTarget_eq_some hr
    split at h
    · unfold hostRead at h
      split at h
      · cases h
        exact .none _ rfl
      · unfold portRead at h
        split at h
        · split at h
          · cases h
            exact .portRead _ ‹_› ‹_› rfl
          · cases h
        · cases h
          exact .none _ rfl
    · rename_i v hk
      rw [hk] at ha
      cases r with
      | id | result | crcResult | memSize => cases h; exact .none _ rfl
      | ctrl => cases h; exact .ctrl v ha rfl
      | status => cases h; exact .status v ha rfl
      | cmd => cases h; exact .cmd v ha rfl
      | src | dst | len | width | height | arg | crcState | lmemAddr => cases h; exact .reg rfl
      | lmemData =>
        unfold hostWrite portWrite at h
        dsimp only at h
        split at h
        · cases h
          exact .portWrite v ‹_› ha rfl
        · cases h
          exact .none _ rfl

/-- What a step that ends in a next state has done. -/
inductive StepEffect (s t : State) : Prop where
  /-- A hardware reset. -/
  | hwReset (hn : (nextTurn s).1 = .hwReset)
      (h : t = hardwareReset { s with schedule := (nextTurn s).2 })
  /-- The turn of an agent that has no step. -/
  | idle (hn : (nextTurn s).1 = .host ∧ s.hostQueue = [] ∨
        (nextTurn s).1 = .engine ∧ s.status.busy = false)
      (h : t = { s with schedule := (nextTurn s).2 })
  /-- The host's access is held. -/
  | held (a : Access) (rest : List Access) (hm : s.HostMakes a rest) (hb : s.status.busy = true)
      (hh : holdable a = true) (h : t = { s with schedule := (nextTurn s).2, held := true })
  /-- The host's access completes. -/
  | access (a : Access) (rest : List Access) (hm : s.HostMakes a rest)
      (hh : s.status.busy = false ∨ holdable a = false)
      (h : AccessEffect a { s with schedule := (nextTurn s).2, hostQueue := rest, held := false } t)
  /-- The engine runs into `BADCMD`. -/
  | badCmd (e : DecodeError) (hn : (nextTurn s).1 = .engine) (hb : s.status.busy = true)
      (hd : decode s.op.word = .error e)
      (h : t = (raiseFault none .badCmd { s with schedule := (nextTurn s).2 }).complete)
  /-- The engine runs a command. -/
  | command (i : Instr) (u : State) (hn : (nextTurn s).1 = .engine) (hb : s.status.busy = true)
      (hd : decode s.op.word = .ok i) (hu : exec i { s with schedule := (nextTurn s).2 } = .next u)
      (h : t = u.complete)

theorem step_next {s t : State} (h : step s = .next t) : StepEffect s t := by
  cases hn : (nextTurn s).1 with
  | hwReset =>
    rw [step_hwReset hn] at h
    cases h
    exact .hwReset hn rfl
  | engine =>
    rw [step_engine hn] at h
    unfold engineTurn at h
    split at h
    · rename_i hb
      unfold engineStep at h
      split at h
      · cases h
        exact .badCmd _ hn hb ‹_› rfl
      · obtain ⟨u, hu, ht⟩ := onNext_eq_next h
        exact .command _ u hn hb ‹_› hu ht
    · cases h
      rename_i hb
      exact .idle (.inr ⟨hn, by simpa using hb⟩) rfl
  | host =>
    rw [step_host hn] at h
    unfold hostTurn at h
    dsimp only at h
    split at h
    · cases h
      exact .idle (.inl ⟨hn, ‹_›⟩) rfl
    · rename_i a rest hq
      split at h
      · rename_i hbh
        rw [Bool.and_eq_true] at hbh
        cases h
        exact .held a rest ⟨hn, hq⟩ hbh.1 hbh.2 rfl
      · rename_i hbh
        refine .access a rest ⟨hn, hq⟩ ?_ (hostAccess_next h)
        cases hb : s.status.busy <;> simp_all

/-- The step of a state whose host makes an access depends on what `hostAccess` answers only. -/
theorem State.accessDone_eq (s : State) (rest : List Access) (r : Response) :
    s.accessDone rest r =
      State.respond r { s with schedule := (nextTurn s).2, hostQueue := rest, held := false } := rfl

/-- A host write of `CTRL` that asks for no reset (10_state.md R23). -/
theorem writeCtrl_of_clear {v : Word} {s : State} (h : v.getLsbD 1 = false) :
    writeCtrl v s = { s with irqEn := v.getLsbD 0 } := by
  unfold writeCtrl
  rw [if_neg (by rw [h]; decide)]

/-- An access to a register waits for the engine unless 40_control.md R115 excepts the register. -/
theorem holdable_regOffset (r : Reg) (k : AccessKind) :
    holdable ⟨regOffset r, 32, k⟩ = !neverHeld r := by
  simp only [holdable, accessTarget_regOffset]

end Sys2Proof.Machine
end

