-- ==== Sys2Proof/Tests/Slice0.lean ====
section
/-! SUPPORT. Tests: the expected values are those of spec/95_test_vectors.md (named in each docstring) or
worked out from the rule named. Then, for each statement with hypotheses, a witness that meets them. -/

namespace Sys2Proof.Tests

open Sys2Proof.Machine

-- One theorem at a time: many evaluations at once would each take a thread of their own.
set_option Elab.async false

/-! ### Helpers -/

/-- The result is a next state that `p` holds of. -/
def gives (r : Result) (p : State → Bool) : Bool :=
  match r with
  | .next s => p s
  | _ => false

/-- The next state of a result, and reset where there is none. -/
def out (r : Result) : State :=
  match r with
  | .next s => s
  | _ => State.reset

theorem next_out {r : Result} (h : gives r (fun _ => true) = true) : r = .next (out r) := by
  cases r with
  | next s => rfl
  | fault _ => cases h
  | refused _ => cases h

/-- Reset, with bytes written to LMEM from address `a` on, and operand registers. -/
def machine (a : Nat) (bs : List Byte) (src dst len : Word) (width height arg : Word := 0#32) : State :=
  { State.reset with
    lmem := cellsFrom a bs
    src := src
    dst := dst
    len := len
    width := width
    height := height
    arg := arg }

/-- `s` right after it accepted the word `w`: latched, `BUSY` = 1, nothing scheduled. -/
def latched (w : Word) (s : State) : State := s.accept w

/-- `s` with the host's next access `a`. -/
def withHost (a : Access) (s : State) : State := { s with hostQueue := [a], schedule := [.host] }

/-- The step that runs the word `w` from `s`. -/
def runs (s : State) (w : Nat) (p : State → Bool) : Bool := gives (step (s.withFetchWord 32 w)) p

/-- `STATUS` reads `v`. -/
def statusIs (v : Word) (t : State) : Bool := t.status.toWord == v

/-- LMEM reads the bytes `bs` from address `a` on. -/
def holds (a : Nat) (bs : List Byte) (t : State) : Bool := t.lmem.readBytes a bs.length == some bs

/-! ### Well-formedness: an ill-formed term for each check -/

/-- R90: bit 8 is reserved. -/
theorem test_wordWf_reserved : wordWf 0x00000100#32 = false := by decide

/-- R94: 0x04 is no opcode, and neither is 0x99. -/
theorem test_wordWf_opcode : wordWf 0x00000004#32 = false ∧ wordWf 0x00000099#32 = false := by decide

theorem test_wordWf_accepts : wordWf 0x00000041#32 = true := by decide

/-- R69: a 16-bit access at offset 0x10 (HP4). -/
theorem test_accessWf_width : Access.wf ⟨0x10, 16, .read⟩ = false := by decide

/-- R69: a 32-bit access at offset 0x12 (HP4). -/
theorem test_accessWf_aligned : Access.wf ⟨0x12, 32, .read⟩ = false := by decide

/-- R70: offset 0x40 is outside the window. -/
theorem test_accessWf_mapped : Access.wf ⟨0x40, 32, .read⟩ = false := by decide

theorem test_accessWf_accepts : Access.wf ⟨0x3C, 32, .read⟩ = true := by decide

/-! ### Decoding: each word of R94 written out bit by bit, `RSVD` (24 bits) then `OP` (8 bits) -/

theorem test_decode_control :
    decode 0b00000000000000000000000000000000#32 = .ok .nop ∧
    decode 0b00000000000000000000000000000001#32 = .ok .crcInit ∧
    decode 0b00000000000000000000000000000010#32 = .ok .crcUpdate ∧
    decode 0b00000000000000000000000000000011#32 = .ok .crcByte := by decide

theorem test_decode_quantizer :
    decode 0b00000000000000000000000000010000#32 = .ok .quant ∧
    decode 0b00000000000000000000000000010001#32 = .ok .dequant := by decide

theorem test_decode_pixel_pack :
    decode 0b00000000000000000000000000100000#32 = .ok .pack ∧
    decode 0b00000000000000000000000000100001#32 = .ok .canvas ∧
    decode 0b00000000000000000000000000100010#32 = .ok .unpack := by decide

theorem test_decode_resampler :
    decode 0b00000000000000000000000000110000#32 = .ok .upscale2x ∧
    decode 0b00000000000000000000000000110001#32 = .ok .downscale2x := by decide

theorem test_decode_frame :
    decode 0b00000000000000000000000001000000#32 = .ok .frameBuild ∧
    decode 0b00000000000000000000000001000001#32 = .ok .frameCheck := by decide

/-- R95, R96: the reserved field is looked at first; CT2, CT3, CT4. -/
theorem test_decode_rejects :
    decode 0x00000100#32 = .error .reservedNonzero ∧ decode 0x00000120#32 = .error .reservedNonzero ∧
    decode 0x00000099#32 = .error .undefinedOp ∧ decode 0x00000023#32 = .error .undefinedOp := by decide

/-- A table word of 32 bits is the word written to `CMD`. -/
theorem test_decodeTableWord :
    decodeTableWord 32 0x31 = some .downscale2x ∧ decodeTableWord 32 0x131 = none ∧
    decodeTableWord 8 0x40 = some .frameBuild := by decide

/-- Each of the thirteen words runs as the first command after reset, and completes. -/
theorem test_withFetchWord_runs :
    ∀ w ∈ [0x00, 0x01, 0x02, 0x03, 0x10, 0x11, 0x20, 0x21, 0x22, 0x30, 0x31, 0x40, 0x41],
      runs State.reset w (fun t => !t.status.busy && t.status.done) = true := by decide

/-! ### The commands -/

/-- CT1. -/
theorem test_nop : runs State.reset 0x00 (statusIs 0x00000002#32) = true := by decide

/-- CT3: `BADCMD` with `ERROP` = 0x99. -/
theorem test_badCmd : runs State.reset 0x99 (statusIs 0x00990106#32) = true := by decide

/-- CR9. -/
theorem test_crcInit :
    runs { State.reset with crcState := 0x12345678#32 } 0x01
      (fun t => t.crcState == 0xFFFFFFFF#32 && t.crcResult == 0#32 && statusIs 0x2#32 t) = true := by
  decide

/-- CR10: the range ends exactly at `LMEM_SIZE`. -/
theorem test_crcUpdate :
    runs (machine 0xFFC [0x01#8, 0x02#8, 0x03#8, 0x04#8] 0xFFC#32 0#32 4#32) 0x02
      (fun t => t.crcResult == 0xB63CFBCD#32 && statusIs 0x2#32 t) = true := by decide +kernel

/-- CR11: one byte more is `RANGE`. -/
theorem test_crcUpdate_range :
    runs (machine 0xFFC [0x01#8, 0x02#8, 0x03#8, 0x04#8] 0xFFC#32 0#32 5#32) 0x02
      (fun t => t.crcState == 0xFFFFFFFF#32 && statusIs 0x00020206#32 t) = true := by decide +kernel

/-- CR13: bits 31:8 of `ARG` do not matter. -/
theorem test_crcByte :
    runs (machine 0 [] 0#32 0#32 0#32 (arg := 0xFFFFFF31#32)) 0x03
      (fun t => t.crcState == 0x7C231048#32) = true := by decide +kernel

/-- QT1: the slice 1 of 0xE4 is 2. -/
theorem test_quant :
    runs (machine 0 [] 0#32 0#32 0#32 (arg := 0x000001E4#32)) 0x10
      (fun t => t.result == 0xAA#32) = true := by decide

/-- QT4: bits 31:10 of `ARG` do not matter. -/
theorem test_quant_arg :
    runs (machine 0 [] 0#32 0#32 0#32 (arg := 0xFFFFFCE4#32)) 0x10
      (fun t => t.result == 0xFF#32) = true := by decide

/-- DQ3 and DQ4: the threshold between 2 and 3. -/
theorem test_dequant :
    runs (machine 0 [] 0#32 0#32 0#32 (arg := 0xD4#32)) 0x11 (fun t => t.result == 2#32) = true ∧
    runs (machine 0 [] 0#32 0#32 0#32 (arg := 0xD5#32)) 0x11 (fun t => t.result == 3#32) = true := by
  decide

/-- DQ5. -/
theorem test_dequant_arg :
    runs (machine 0 [] 0#32 0#32 0#32 (arg := 0xFFFFFF2B#32)) 0x11
      (fun t => t.result == 1#32) = true := by decide

/-- PK1: which slice goes to which channel. -/
theorem test_pack :
    runs (machine 0 [0x12#8, 0x34#8, 0x56#8] 0#32 0x10#32 3#32) 0x20
      (fun t => t.result == 4#32 &&
        holds 0x10 [0x00#8, 0x55#8, 0x00#8, 0xAA#8, 0x00#8, 0xFF#8, 0x55#8, 0x00#8, 0x55#8, 0x55#8,
          0x55#8, 0xAA#8] t) = true := by decide +kernel

/-- PK5a: the twelve bytes do not fit. -/
theorem test_pack_range :
    runs (machine 0 [0x12#8, 0x34#8, 0x56#8] 0#32 0xFF5#32 3#32) 0x20
      (statusIs 0x00200206#32) = true := by decide +kernel

/-- PK6: five pixels, then four white ones. -/
theorem test_canvas :
    runs (machine 0 [0x11#8, 0x22#8, 0x33#8, 0x44#8, 0x55#8, 0x66#8, 0x77#8, 0x88#8, 0x99#8, 0xAA#8,
        0xBB#8, 0xCC#8, 0xDD#8, 0xEE#8, 0xF0#8] 0#32 0x20#32 5#32) 0x21
      (fun t => t.result == 3#32 && holds 0x2B [0xCC#8, 0xDD#8, 0xEE#8, 0xF0#8, 0xFF#8] t &&
        holds 0x3A [0xFF#8] t && t.lmem.read 0x3B == none) = true := by decide +kernel

/-- PK15: csqrt at and beside squares, and at the greatest `LEN`. -/
theorem test_csqrt :
    csqrt 0 = 0 ∧ csqrt 4 = 2 ∧ csqrt 5 = 3 ∧ csqrt 9 = 3 ∧ csqrt 10 = 4 ∧ csqrt (2 ^ 32 - 1) = 65536 := by
  decide +kernel

/-- PK12: the noisy pixels. -/
theorem test_unpack :
    runs (machine 0 [0x28#8, 0x64#8, 0x05#8, 0xB4#8, 0x1E#8, 0xFA#8, 0x5A#8, 0x0C#8, 0x3C#8, 0x46#8,
        0x50#8, 0xA0#8] 0#32 0x10#32 4#32) 0x22
      (fun t => t.result == 3#32 && holds 0x10 [0x12#8, 0x34#8, 0x56#8] t) = true := by decide +kernel

/-- PK14: two white pixels, the missing ones read as 0. -/
theorem test_unpack_partial :
    runs (machine 0 [0xFF#8, 0xFF#8, 0xFF#8, 0xFF#8, 0xFF#8, 0xFF#8] 0#32 0x10#32 2#32) 0x22
      (holds 0x10 [0xFF#8, 0xF0#8, 0x00#8]) = true := by decide +kernel

/-- UP2. -/
theorem test_upscale2x :
    runs (machine 0 [0x01#8, 0x02#8, 0x03#8, 0x04#8, 0x05#8, 0x06#8] 0#32 0x10#32 0#32 2#32 1#32) 0x30
      (fun t => t.result == 4#32 &&
        holds 0x10 [1#8, 2#8, 3#8, 1#8, 2#8, 3#8, 4#8, 5#8, 6#8, 4#8, 5#8, 6#8, 1#8, 2#8, 3#8] t) = true := by
  decide +kernel

/-- UP3: the width wraps, nothing is written. -/
theorem test_upscale2x_wraps :
    runs (machine 0 [] 0#32 0#32 0#32 0x80000000#32 0#32) 0x30
      (fun t => t.result == 0#32 && t.lmem == [] && statusIs 0x2#32 t) = true := by decide +kernel

/-- DN4, on a 3 by 3 image whose last row and column nothing has written: they are not read. -/
theorem test_downscale2x :
    runs { machine 0 [0x0A#8, 0x0B#8, 0x0C#8, 0x0D#8, 0x0E#8, 0x0F#8] 0#32 0x40#32 0#32 3#32 3#32 with
        lmem := cellsFrom 0 [0x0A#8, 0x0B#8, 0x0C#8, 0x0D#8, 0x0E#8, 0x0F#8] ++
          cellsFrom 9 [0x13#8, 0x14#8, 0x15#8, 0x16#8, 0x17#8, 0x18#8] } 0x31
      (fun t => t.result == 1#32 && holds 0x40 [0x10#8, 0x11#8, 0x12#8] t) = true := by decide +kernel

/-- DN2: the mean rounds half up. -/
theorem test_boxMean :
    boxMean 0#8 0#8 1#8 0#8 = 0#8 ∧ boxMean 0#8 1#8 1#8 0#8 = 1#8 ∧ boxMean 0xFF#8 0#8 0#8 0#8 = 64#8 ∧
    boxMean 0xFF#8 0xFF#8 0xFF#8 0xFE#8 = 0xFF#8 := by decide

/-- FB10: the frame of "A" in the last nine bytes. -/
theorem test_frameBuild :
    runs (machine 0 [0x41#8] 0#32 0xFF7#32 1#32) 0x40
      (fun t => t.result == 9#32 && t.crcResult == 0xFA99AFAB#32 && statusIs 0x2#32 t &&
        holds 0xFF7 [0xAB#8, 0xAF#8, 0x99#8, 0xFA#8, 0x01#8, 0x00#8, 0x00#8, 0x00#8, 0x41#8] t)
      = true := by decide +kernel

/-- FB8: `LENCEIL` comes before `RANGE`. -/
theorem test_frameBuild_lenCeil :
    runs (machine 0 [] 0x2000#32 0x100#32 0x01000000#32) 0x40
      (statusIs 0x00400406#32) = true := by decide +kernel

/-- FC3: the trailing bytes are not read; here nothing has written them. -/
theorem test_frameCheck :
    runs (machine 0 [0xAB#8, 0xAF#8, 0x99#8, 0xFA#8, 0x01#8, 0x00#8, 0x00#8, 0x00#8, 0x41#8]
        0#32 0#32 11#32) 0x41
      (fun t => t.result == 1#32 && statusIs 0x0000000A#32 t) = true := by decide +kernel

/-- FC9: a fault clears `INTEG_OK`. -/
theorem test_frameCheck_malformed :
    runs { machine 0 [] 0#32 0#32 0#32 with status := ⟨false, true, false, true, 0#8, 0#8⟩ } 0x41
      (statusIs 0x00410506#32) = true := by decide +kernel

/-! ### The host's accesses -/

/-- HP1: only bits 7:0 are stored, and the address advances. -/
theorem test_portWrite :
    gives (step (withHost ⟨0x38, 32, .write 0x1234ABCD#32⟩ { State.reset with lmemAddr := 0x10#32 }))
      (fun t => holds 0x10 [0xCD#8] t && t.lmemAddr == 0x11#32 && t.responses == [.written]) = true := by
  decide +kernel

/-- HP3: at `LMEM_SIZE` the access ends in a bus error and the address stays. -/
theorem test_portWrite_busError :
    gives (step (withHost ⟨0x38, 32, .write 0x5B#32⟩ { State.reset with lmemAddr := 0x1000#32 }))
      (fun t => t.lmem == [] && t.lmemAddr == 0x1000#32 && t.responses == [.busError]) = true := by
  decide +kernel

/-- HP2. -/
theorem test_portRead :
    gives (step (withHost ⟨0x38, 32, .read⟩
        { State.reset with lmem := cellsFrom 0x10 [0xCD#8], lmemAddr := 0x10#32 }))
      (fun t => t.lmemAddr == 0x11#32 && t.responses == [.data 0x000000CD#32]) = true := by
  decide +kernel

/-- CT5: writing 1 to bit 2 acknowledges the fault and leaves `DONE`. -/
theorem test_acknowledge :
    gives (step (withHost ⟨0x08, 32, .write 0x00000004#32⟩
        { State.reset with status := ⟨false, true, true, false, 0x01#8, 0x99#8⟩ }))
      (statusIs 0x00000002#32) = true := by decide +kernel

/-- CT12: the soft reset. -/
theorem test_softReset :
    gives (step (withHost ⟨0x04, 32, .write 0x00000003#32⟩
        { State.reset with
          src := 0x55#32, crcState := 0#32, status := ⟨false, true, false, true, 0#8, 0#8⟩
          lmem := cellsFrom 0 [0x77#8] }))
      (fun t => !t.irqEn && statusIs 0#32 t && t.crcState == 0xFFFFFFFF#32 && t.src == 0#32 &&
        holds 0 [0x77#8] t) = true := by decide +kernel

/-- CT11: `ERR` alone raises `IRQ`. -/
theorem test_irq :
    State.irq { State.reset with irqEn := true, status := ⟨false, false, true, false, 1#8, 0x99#8⟩ }
      = true := by decide

/-- R99: `POKE` is an address write and one data write a byte. -/
theorem test_poke :
    HostProgram.poke 0x10#32 [0xAB#8] =
      [⟨0x34, 32, .write 0x10#32⟩, ⟨0x38, 32, .write 0x000000AB#32⟩] := by decide

/-! ### Witnesses: for each statement with hypotheses, values that meet all of them together -/

theorem isCsqrt_of_eq {n s : Nat} (h : csqrt n = s) : IsCsqrt n s := h ▸ csqrt_spec n

/-- A busy BPX whose engine moves next: CRC_INIT is latched. -/
def busyEngine : State := latched 0x01#32 State.reset

/-- A busy BPX, whose host's turn comes first. -/
def busyHost (a : Access) : State := withHost a busyEngine

/-- An idle BPX whose registers all differ, and whose host makes the access `a`. -/
def idleHost (a : Access) : State :=
  withHost a { machine 0 [0x12#8] 1#32 2#32 3#32 4#32 5#32 6#32 with
    result := 7#32
    crcState := 8#32
    status := ⟨false, true, true, true, 0x02#8, 0x20#8⟩ }

theorem test_witness_StepRunsDecodedCommand :
    (nextTurn busyEngine).1 = .engine ∧ busyEngine.status.busy = true ∧
      decode busyEngine.op.word = .ok .crcInit := by decide

theorem test_witness_CmdWriteAccepts :
    (idleHost ⟨0x0C, 32, .write 0x99#32⟩).HostMakes ⟨0x0C, 32, .write 0x99#32⟩ [] ∧
      (idleHost ⟨0x0C, 32, .write 0x99#32⟩).status.busy = false := ⟨⟨rfl, rfl⟩, rfl⟩

/-- A command that faults, one that does not, and an idle BPX. -/
theorem test_witness_EngineStepCompletes :
    (nextTurn (latched 0x99#32 State.reset)).1 = .engine ∧
    gives (step (latched 0x99#32 State.reset)) (fun t => t.status.err) = true ∧
    gives (step busyEngine) (fun t => !t.status.err) = true ∧ busyEngine.status.busy = true ∧
    (nextTurn { State.reset with schedule := [.engine] }).1 = .engine ∧
    State.reset.status.busy = false := by decide

theorem test_witness_IdleMachineWaits :
    State.reset.status.busy = false ∧ State.reset.hostQueue = [] ∧ State.reset.schedule = [] := by decide

/-- The command completes after the host's turn, or stops at an unwritten byte (log 2). -/
theorem test_witness_EveryCommandCompletes :
    (busyHost ⟨0x10, 32, .read⟩).status.busy = true ∧
    Turn.hwReset ∉ (busyHost ⟨0x10, 32, .read⟩).schedule ∧
    gives (steps 2 (busyHost ⟨0x10, 32, .read⟩)) (fun t => t.status.done) = true ∧
    (latched 0x02#32 (machine 0 [] 0#32 0#32 1#32)).status.busy = true := by decide

theorem test_witness_BusyHoldsAccess :
    (busyHost ⟨0x38, 32, .read⟩).HostMakes ⟨0x38, 32, .read⟩ [] ∧
      (busyHost ⟨0x38, 32, .read⟩).status.busy = true ∧ 0x38 % 4 = 0 ∧ 0x38 < 0x40 ∧ 0x38 ≠ 0x00 ∧
      0x38 ≠ 0x08 ∧ 0x38 ≠ 0x3C := ⟨⟨rfl, rfl⟩, rfl, by decide⟩

theorem test_witness_ExceptedAccessesComplete :
    (busyHost ⟨0x00, 32, .read⟩).HostMakes ⟨0x00, 32, .read⟩ [] ∧
    (busyHost ⟨0x08, 32, .read⟩).HostMakes ⟨0x08, 32, .read⟩ [] ∧
    (busyHost ⟨0x3C, 32, .read⟩).HostMakes ⟨0x3C, 32, .read⟩ [] ∧
    (busyHost ⟨0x00, 32, .write 1#32⟩).HostMakes ⟨0x00, 32, .write 1#32⟩ [] ∧
    (busyHost ⟨0x3C, 32, .write 1#32⟩).HostMakes ⟨0x3C, 32, .write 1#32⟩ [] :=
  ⟨⟨rfl, rfl⟩, ⟨rfl, rfl⟩, ⟨rfl, rfl⟩, ⟨rfl, rfl⟩, ⟨rfl, rfl⟩⟩

theorem test_witness_IdleLatchUnobservable : State.reset.status.busy = false := rfl

/-- Every row: the offset reads the value its row gives. -/
theorem test_witness_RegisterReads :
    (∀ off ∈ [0x00, 0x04, 0x08, 0x0C, 0x10, 0x14, 0x18, 0x1C, 0x20, 0x24, 0x28, 0x2C, 0x30, 0x34, 0x3C],
      (nextTurn (idleHost ⟨off, 32, .read⟩)).1 = .host ∧
      (idleHost ⟨off, 32, .read⟩).hostQueue = [⟨off, 32, .read⟩] ∧
      (idleHost ⟨off, 32, .read⟩).status.busy = false) ∧
    [0x00, 0x04, 0x08, 0x0C, 0x10, 0x14, 0x18, 0x1C, 0x20, 0x24, 0x28, 0x2C, 0x30, 0x34, 0x3C].map
        (fun off => (out (step (idleHost ⟨off, 32, .read⟩))).responses) =
      [[.data 0x42504E47#32], [.data 0#32], [.data 0x0020020E#32], [.data 0#32], [.data 1#32],
        [.data 2#32], [.data 3#32], [.data 4#32], [.data 5#32], [.data 6#32], [.data 7#32], [.data 8#32],
        [.data 0xFFFFFFF7#32], [.data 0#32], [.data 0x1000#32]] := by decide +kernel

/-- Every row: the written register, or no register, takes the value. -/
theorem test_witness_RegisterWrites :
    (∀ off ∈ [0x10, 0x14, 0x18, 0x1C, 0x20, 0x24, 0x2C, 0x34, 0x00, 0x28, 0x30, 0x3C],
      (nextTurn (idleHost ⟨off, 32, .write 9#32⟩)).1 = .host ∧
      (idleHost ⟨off, 32, .write 9#32⟩).hostQueue = [⟨off, 32, .write 9#32⟩] ∧
      (idleHost ⟨off, 32, .write 9#32⟩).status.busy = false) ∧
    [0x10, 0x14, 0x18, 0x1C, 0x20, 0x24, 0x2C, 0x34, 0x00, 0x28, 0x30, 0x3C].map
        (fun off =>
          let t := out (step (idleHost ⟨off, 32, .write 9#32⟩))
          [t.src, t.dst, t.len, t.width, t.height, t.arg, t.crcState, t.lmemAddr, t.result].count 9#32) =
      [1, 1, 1, 1, 1, 1, 1, 1, 0, 0, 0, 0] := by decide +kernel

theorem test_witness_StatusWriteClears :
    (busyHost ⟨0x08, 32, .write 6#32⟩).HostMakes ⟨0x08, 32, .write 6#32⟩ [] := ⟨rfl, rfl⟩

theorem test_witness_CtrlWrite :
    (idleHost ⟨0x04, 32, .write 1#32⟩).HostMakes ⟨0x04, 32, .write 1#32⟩ [] ∧
    (idleHost ⟨0x04, 32, .write 1#32⟩).status.busy = false ∧ (1#32).getLsbD 1 = false ∧
    (idleHost ⟨0x04, 32, .write 3#32⟩).HostMakes ⟨0x04, 32, .write 3#32⟩ [] ∧
    (idleHost ⟨0x04, 32, .write 3#32⟩).status.busy = false ∧ (3#32).getLsbD 1 = true :=
  ⟨⟨rfl, rfl⟩, rfl, by decide, ⟨rfl, rfl⟩, rfl, by decide⟩

/-- With a command running and an access held, and with neither. -/
theorem test_witness_HardwareResetValues :
    (nextTurn { State.reset with schedule := [.hwReset] }).1 = .hwReset ∧
    State.reset.status.busy = false ∧ State.reset.held = false ∧
    (nextTurn { busyHost ⟨0x10, 32, .read⟩ with held := true, schedule := [.hwReset] }).1 = .hwReset := by
  decide

/-- The word `w` is latched, and a hardware reset comes next. -/
def abandoned (w : Word) : State :=
  { latched w (machine 0 [] 0#32 0xFFE#32 3#32) with schedule := [.hwReset] }

/-- A PACK whose destination ends past LMEM, a command without destination, and a word that is no
command. -/
theorem test_witness_ResetAbandonsCommand :
    (nextTurn (abandoned 0x20#32)).1 = .hwReset ∧ (abandoned 0x20#32).status.busy = true ∧
    decode (abandoned 0x20#32).op.word = .ok .pack ∧
    dstRange .pack (abandoned 0x20#32).op = some ⟨0xFFE, 12⟩ ∧
    0xFFF < (abandoned 0x20#32).memSize.toNat ∧
    (nextTurn (abandoned 0x02#32)).1 = .hwReset ∧ (abandoned 0x02#32).status.busy = true ∧
    decode (abandoned 0x02#32).op.word = .ok .crcUpdate ∧
    dstRange .crcUpdate (abandoned 0x02#32).op = none ∧
    (nextTurn (abandoned 0x99#32)).1 = .hwReset ∧ (abandoned 0x99#32).status.busy = true ∧
    decode (abandoned 0x99#32).op.word = .error .undefinedOp :=
  ⟨rfl, rfl, by decide, by decide, by decide, rfl, rfl, by decide, rfl, rfl, rfl, by decide⟩

/-- The last byte of LMEM. -/
theorem test_witness_PortWrite :
    let s := { idleHost ⟨0x38, 32, .write 0x5A#32⟩ with lmemAddr := 0xFFF#32 }
    s.HostMakes ⟨0x38, 32, .write 0x5A#32⟩ [] ∧ s.status.busy = false ∧
      s.lmemAddr.toNat < s.memSize.toNat := ⟨⟨rfl, rfl⟩, rfl, by decide⟩

theorem test_witness_PortRead :
    let s := idleHost ⟨0x38, 32, .read⟩
    s.HostMakes ⟨0x38, 32, .read⟩ [] ∧ s.status.busy = false ∧ s.lmemAddr.toNat < s.memSize.toNat ∧
      s.lmem.read s.lmemAddr.toNat = some 0x12#8 := ⟨⟨rfl, rfl⟩, rfl, by decide, by decide⟩

/-- One past the last byte of LMEM. -/
theorem test_witness_PortBusError :
    let s := { idleHost ⟨0x38, 32, .read⟩ with lmemAddr := 0x1000#32 }
    s.HostMakes ⟨0x38, 32, .read⟩ [] ∧ s.status.busy = false ∧ s.memSize.toNat ≤ s.lmemAddr.toNat :=
  ⟨⟨rfl, rfl⟩, rfl, by decide⟩

/-- Each of the three ways an access is ill formed, while `BUSY` = 1. -/
theorem test_witness_IllFormedAccessBusError :
    (busyHost ⟨0x10, 16, .read⟩).HostMakes ⟨0x10, 16, .read⟩ [] ∧
    (busyHost ⟨0x12, 32, .read⟩).HostMakes ⟨0x12, 32, .read⟩ [] ∧ 0x12 % 4 ≠ 0 ∧
    (busyHost ⟨0x40, 32, .read⟩).HostMakes ⟨0x40, 32, .read⟩ [] ∧ 0x40 ≤ 0x40 :=
  ⟨⟨rfl, rfl⟩, ⟨rfl, rfl⟩, by decide, ⟨rfl, rfl⟩, by decide⟩

/-- `IRQ` falls by an acknowledge, and by a hardware reset. -/
theorem test_witness_IrqFallsOnlyByHostOrReset :
    let s := { idleHost ⟨0x08, 32, .write 6#32⟩ with irqEn := true }
    let u := { s with schedule := [.hwReset] }
    s.irq = true ∧ gives (step s) (fun t => !t.irq) = true ∧
      u.irq = true ∧ gives (step u) (fun t => !t.irq) = true := by decide

/-- `ERR` falls by an acknowledge, and by a soft reset. -/
theorem test_witness_ErrIsSticky :
    (idleHost ⟨0x08, 32, .write 4#32⟩).status.err = true ∧
    gives (step (idleHost ⟨0x08, 32, .write 4#32⟩)) (fun t => !t.status.err) = true ∧
    (idleHost ⟨0x04, 32, .write 2#32⟩).status.err = true ∧
    gives (step (idleHost ⟨0x04, 32, .write 2#32⟩)) (fun t => !t.status.err) = true := by decide

/-- `INTEG_OK` is set by FRAME_CHECK of the empty frame (FB1), and falls by a soft reset. -/
theorem test_witness_IntegOkWriters :
    let s := latched 0x41#32
      (machine 0 [0x1C#8, 0xDF#8, 0x44#8, 0x21#8, 0#8, 0#8, 0#8, 0#8] 0#32 0#32 8#32)
    s.status.integOk = false ∧ gives (step s) (fun t => t.status.integOk) = true ∧
    (idleHost ⟨0x04, 32, .write 2#32⟩).status.integOk = true ∧
    gives (step (idleHost ⟨0x04, 32, .write 2#32⟩)) (fun t => !t.status.integOk) = true := by
  decide +kernel

theorem test_witness_BadCommandFault :
    (nextTurn (latched 0x120#32 State.reset)).1 = .engine ∧
      (latched 0x120#32 State.reset).status.busy = true ∧
      decode (latched 0x120#32 State.reset).op.word = .error .reservedNonzero := by decide

/-- A command that stores, on its own and as a step. -/
theorem test_witness_CommandsWriteNoOperand :
    let s := latched 0x40#32 (machine 0 [0x41#8] 0#32 0x10#32 1#32)
    exec .frameBuild s = .next (out (exec .frameBuild s)) ∧ (nextTurn s).1 = .engine ∧
      s.status.busy = true ∧ step s = .next (out (step s)) :=
  ⟨next_out (by decide +kernel), by decide, by decide, next_out (by decide +kernel)⟩

/-- A PACK that faults, and a FRAME_CHECK that writes `INTEG_OK`. -/
theorem test_witness_FaultsWriteNothingElse :
    let s := latched 0x20#32 (machine 0 [1#8, 2#8, 3#8] 0#32 2#32 3#32)
    let u := latched 0x41#32
      (machine 0 [0x1C#8, 0xDF#8, 0x44#8, 0x21#8, 0#8, 0#8, 0#8, 0#8] 0#32 0#32 8#32)
    exec .pack s = .next (out (exec .pack s)) ∧ (out (exec .pack s)).status.err = true ∧
      exec .frameCheck u = .next (out (exec .frameCheck u)) ∧
      (out (exec .frameCheck u)).status.integOk = true :=
  ⟨next_out (by decide +kernel), by decide +kernel, next_out (by decide +kernel), by decide +kernel⟩

/-- A command with a destination range, and one without. -/
theorem test_witness_StoresOnlyInDestination :
    let s := latched 0x40#32 (machine 0 [0x41#8] 0#32 0x10#32 1#32)
    exec .frameBuild s = .next (out (exec .frameBuild s)) ∧
      dstRange .frameBuild s.op = some ⟨0x10, 9⟩ ∧
      exec .crcUpdate s = .next (out (exec .crcUpdate s)) ∧ dstRange .crcUpdate s.op = none :=
  ⟨next_out (by decide +kernel), by decide, next_out (by decide +kernel), by decide⟩

theorem test_witness_CommandRanges :
    let op := (latched 0x21#32 (machine 0 [] 0#32 0#32 5#32)).op
    IsCsqrt op.len.toNat 3 := isCsqrt_of_eq (by decide)

/-- One value for each of the four faults, each at the edge of its check. -/
theorem test_witness_CheckPriority :
    (2 ^ 24 ≤ (latched 0x40#32 (machine 0 [] 0#32 0#32 0x01000000#32)).op.len.toNat) ∧
    (let s := latched 0x02#32 (machine 0 [] 0xFFC#32 0#32 5#32)
     srcRange .crcUpdate s.op = some ⟨0xFFC, 5⟩ ∧ ¬ InLmem s.memSize.toNat 0xFFC 5) ∧
    (let s := latched 0x40#32 (machine 0 [] 0#32 0xFF8#32 1#32)
     s.op.len.toNat < 2 ^ 24 ∧ srcRange .frameBuild s.op = some ⟨0, 1⟩ ∧
       InLmem s.memSize.toNat 0 1 ∧ dstRange .frameBuild s.op = some ⟨0xFF8, 9⟩ ∧
       ¬ InLmem s.memSize.toNat 0xFF8 9) ∧
    (let s := latched 0x20#32 (machine 0 [] 0#32 2#32 3#32)
     srcRange .pack s.op = some ⟨0, 3⟩ ∧ InLmem s.memSize.toNat 0 3 ∧
       dstRange .pack s.op = some ⟨2, 12⟩ ∧ InLmem s.memSize.toNat 2 12 ∧ Overlap 0 3 2 12) := by
  decide

/-- A buffer of seven bytes, and one whose declared length is one too long (FC4). -/
theorem test_witness_MalformedFault :
    (let s := latched 0x41#32 (machine 0 [] 0#32 0#32 7#32)
     InLmem s.memSize.toNat s.op.src.toNat s.op.len.toNat ∧ s.op.len.toNat < 8) ∧
    (let f : List Byte := [0xAB#8, 0xAF#8, 0x99#8, 0xFA#8, 1#8, 0#8, 0#8, 0#8]
     let s := latched 0x41#32 (machine 0 f 0#32 0#32 8#32)
     InLmem s.memSize.toNat s.op.src.toNat s.op.len.toNat ∧ 8 ≤ s.op.len.toNat ∧
       s.lmem.Holds s.op.src.toNat 8 (byteAt f) ∧ s.op.len.toNat - 8 < declared (byteAt f)) := by
  unfold Memory.Holds
  decide +kernel

/-- A command all of whose source bytes are written; one that needs an unwritten byte; the port at one. -/
theorem test_witness_StopsOnlyAtUnwrittenBytes :
    (let s := latched 0x02#32 (machine 0 [7#8] 0#32 0#32 1#32)
     srcRange .crcUpdate s.op = some ⟨0, 1⟩ ∧ ∀ k, k < 1 → s.lmem.read (0 + k) ≠ none) ∧
    (let s := latched 0x02#32 (machine 0 [7#8] 0#32 0#32 2#32)
     InLmem s.memSize.toNat s.op.src.toNat s.op.len.toNat ∧ 1 < s.op.len.toNat ∧
       s.lmem.read (s.op.src.toNat + 1) = none) ∧
    (let s := withHost ⟨0x38, 32, .read⟩ State.reset
     ((nextTurn s).1 = .host ∧ s.hostQueue = [⟨0x38, 32, .read⟩]) ∧ s.status.busy = false ∧
       s.lmemAddr.toNat < s.memSize.toNat ∧ s.lmem.read s.lmemAddr.toNat = none) := by decide

theorem test_witness_CrcUpdateResult :
    let s := latched 0x02#32 (machine 0xFFC [1#8, 2#8, 3#8, 4#8] 0xFFC#32 0#32 4#32)
    InLmem s.memSize.toNat s.op.src.toNat s.op.len.toNat ∧
      s.lmem.Holds s.op.src.toNat s.op.len.toNat (byteAt [1#8, 2#8, 3#8, 4#8]) := by
  unfold Memory.Holds
  decide +kernel

theorem test_witness_CrcProperties : (0x40#8 : Byte) ≠ 0x41#8 := by decide

/-- FB10: the destination ends with LMEM. -/
theorem test_witness_FrameBuildResult :
    let s := latched 0x40#32 (machine 0 [0x41#8] 0#32 0xFF7#32 1#32)
    let n := s.op.len.toNat
    n < 2 ^ 24 ∧ InLmem s.memSize.toNat s.op.src.toNat n ∧
      InLmem s.memSize.toNat s.op.dst.toNat (n + 8) ∧
      ¬ Overlap s.op.src.toNat n s.op.dst.toNat (n + 8) ∧
      s.lmem.Holds s.op.src.toNat n (byteAt [0x41#8]) := by
  unfold Memory.Holds
  decide +kernel

/-- The frame of "A" (FB2), as bytes. -/
def frameA : List Byte := [0xAB#8, 0xAF#8, 0x99#8, 0xFA#8, 1#8, 0#8, 0#8, 0#8, 0x41#8]

theorem test_witness_FrameCheckResult :
    let s := latched 0x41#32 (machine 0 frameA 0#32 0#32 9#32)
    InLmem s.memSize.toNat s.op.src.toNat s.op.len.toNat ∧ 8 ≤ s.op.len.toNat ∧
      declared (byteAt frameA) ≤ s.op.len.toNat - 8 ∧
      s.lmem.Holds s.op.src.toNat (8 + declared (byteAt frameA)) (byteAt frameA) := by
  unfold Memory.Holds
  decide +kernel

/-- FRAME_BUILD of "A" at 1, then FRAME_CHECK of its frame and two more bytes. -/
theorem test_witness_FrameRoundTrip :
    let s := latched 0x40#32 (machine 0 [0x41#8] 0#32 1#32 1#32)
    let t := out (exec .frameBuild s)
    let u := latched 0x41#32 { t with src := 1#32, len := 11#32 }
    let n := s.op.len.toNat
    n < 2 ^ 24 ∧ InLmem s.memSize.toNat s.op.src.toNat n ∧
      InLmem s.memSize.toNat s.op.dst.toNat (n + 8) ∧
      ¬ Overlap s.op.src.toNat n s.op.dst.toNat (n + 8) ∧
      s.lmem.Holds s.op.src.toNat n (byteAt [0x41#8]) ∧ exec .frameBuild s = .next t ∧
      (∀ i, i < n + 8 → u.lmem.read (u.op.src.toNat + i) = t.lmem.read (s.op.dst.toNat + i)) ∧
      u.op.len.toNat = n + 8 + 2 ∧ InLmem u.memSize.toNat u.op.src.toNat (n + 8 + 2) := by
  unfold Memory.Holds
  exact ⟨by decide, by decide, by decide, by decide, by decide +kernel, next_out (by decide +kernel),
    by decide +kernel, by decide +kernel, by decide +kernel⟩

/-- FC10: the payload byte 41 is read back as 40; and FC2's byte 0, and byte 7. -/
theorem test_witness_FrameTamperDetected :
    let f := byteAt [0x41#8]
    ∀ j ∈ [0, 7, 8],
      let g := byteAt (frameA.set j 0x40#8)
      let u := latched 0x41#32 (machine 0 (frameA.set j 0x40#8) 0#32 0#32 9#32)
      (1 < 2 ^ 24 ∧ InLmem u.memSize.toNat u.op.src.toNat u.op.len.toNat ∧ 1 + 8 ≤ u.op.len.toNat) ∧
      (∀ i, i < 1 + 8 → u.lmem.read (u.op.src.toNat + i) = some (g i)) ∧
      j < 1 + 8 ∧ j ≠ 4 ∧ j ≠ 5 ∧ j ≠ 6 ∧ g j ≠ frameByte 1 f j ∧
      (∀ i, i < 1 + 8 → i ≠ j → g i = frameByte 1 f i) := by decide +kernel

/-- The symbol 2 of 0xE4, read back 42 too low and 42 too high. -/
theorem test_witness_QuantizationStable :
    let s := latched 0x10#32 (machine 0 [] 0#32 0#32 0#32 (arg := 0x1E4#32))
    let t := out (exec .quant s)
    exec .quant s = .next t ∧
    ∀ a ∈ [0x80#8, 0xD4#8],
      (latched 0x11#32 (machine 0 [] 0#32 0#32 0#32 (arg := a.setWidth 32))).op.arg.toNat % 256 = a.toNat ∧
      a.toNat ≤ t.result.toNat + 42 ∧ t.result.toNat ≤ a.toNat + 42 :=
  ⟨next_out (by decide), by decide⟩

/-- Four bytes, so that the last group is not full; the pixel array ends with LMEM. -/
theorem test_witness_PackResult :
    let s := latched 0x20#32 (machine 0 [1#8, 2#8, 3#8, 4#8] 0#32 0xFE8#32 4#32)
    let L := s.op.len.toNat
    let G := (L + 2) / 3
    InLmem s.memSize.toNat s.op.src.toNat L ∧ InLmem s.memSize.toNat s.op.dst.toNat (12 * G) ∧
      ¬ Overlap s.op.src.toNat L s.op.dst.toNat (12 * G) ∧
      s.lmem.Holds s.op.src.toNat L (byteAt [1#8, 2#8, 3#8, 4#8]) := by
  unfold Memory.Holds
  decide +kernel

/-- Two pixels on a canvas of side 2. -/
theorem test_witness_CanvasResult :
    let s := latched 0x21#32 (machine 0 [1#8, 2#8, 3#8, 4#8, 5#8, 6#8] 0#32 6#32 2#32)
    let P := s.op.len.toNat
    IsCsqrt P 2 ∧ InLmem s.memSize.toNat s.op.src.toNat (3 * P) ∧
      InLmem s.memSize.toNat s.op.dst.toNat (3 * 2 * 2) ∧
      ¬ Overlap s.op.src.toNat (3 * P) s.op.dst.toNat (3 * 2 * 2) ∧
      s.lmem.Holds s.op.src.toNat (3 * P) (byteAt [1#8, 2#8, 3#8, 4#8, 5#8, 6#8]) := by
  unfold Memory.Holds
  exact ⟨isCsqrt_of_eq (by decide), by decide, by decide, by decide, by decide +kernel⟩

/-- One pixel. -/
theorem test_witness_UnpackResult :
    let s := latched 0x22#32 (machine 0 [0x55#8, 0xAA#8, 0xFF#8] 0#32 3#32 1#32)
    let N := s.op.len.toNat
    let G := (N + 3) / 4
    InLmem s.memSize.toNat s.op.src.toNat (3 * N) ∧ InLmem s.memSize.toNat s.op.dst.toNat (3 * G) ∧
      ¬ Overlap s.op.src.toNat (3 * N) s.op.dst.toNat (3 * G) ∧
      s.lmem.Holds s.op.src.toNat (3 * N) (byteAt [0x55#8, 0xAA#8, 0xFF#8]) := by
  unfold Memory.Holds
  decide +kernel

theorem test_witness_CsqrtIsLeast : csqrt 5 = 3 ∧ IsCsqrt 5 3 :=
  ⟨by decide, isCsqrt_of_eq (by decide)⟩

/-- Two bytes packed at 2, unpacked at 14. -/
theorem test_witness_PackUnpackRoundTrip :
    let s := latched 0x20#32 (machine 0 [0xE4#8, 0x1B#8] 0#32 2#32 2#32)
    let t := out (exec .pack s)
    let u := latched 0x22#32 { t with src := 2#32, dst := 14#32, len := t.result }
    let L := s.op.len.toNat
    let G := (L + 2) / 3
    InLmem s.memSize.toNat s.op.src.toNat L ∧ InLmem s.memSize.toNat s.op.dst.toNat (12 * G) ∧
      ¬ Overlap s.op.src.toNat L s.op.dst.toNat (12 * G) ∧
      s.lmem.Holds s.op.src.toNat L (byteAt [0xE4#8, 0x1B#8]) ∧ exec .pack s = .next t ∧
      u.op.len = t.result ∧
      (∀ i, i < 12 * G → u.lmem.read (u.op.src.toNat + i) = t.lmem.read (s.op.dst.toNat + i)) ∧
      InLmem u.memSize.toNat u.op.src.toNat (12 * G) ∧
      InLmem u.memSize.toNat u.op.dst.toNat (3 * G) ∧
      ¬ Overlap u.op.src.toNat (12 * G) u.op.dst.toNat (3 * G) := by
  unfold Memory.Holds
  exact ⟨by decide, by decide, by decide, by decide +kernel, next_out (by decide +kernel),
    by decide +kernel, by decide +kernel, by decide +kernel, by decide +kernel, by decide +kernel⟩

/-- The four pixels of one frame byte FF, then 1, 2 and 3 white pixels: each of the last three clauses. -/
theorem test_witness_CanvasReadBack :
    let image : List Byte := List.replicate 4 0xFF#8 ++ List.replicate 8 0#8 ++ List.replicate 9 0xFF#8
    ∀ N ∈ [5, 6, 7],
      let u := latched 0x22#32 (machine 0 image 0#32 0x20#32 (BitVec.ofNat 32 N))
      let G := (1 + 2) / 3
      u.op.len.toNat = N ∧ 4 * G ≤ N ∧ InLmem u.memSize.toNat u.op.src.toNat (3 * N) ∧
        InLmem u.memSize.toNat u.op.dst.toNat (3 * ((N + 3) / 4)) ∧
        ¬ Overlap u.op.src.toNat (3 * N) u.op.dst.toNat (3 * ((N + 3) / 4)) ∧
        (∀ i, i < 3 * N → u.lmem.read (u.op.src.toNat + i) =
          some (if i < 12 * G then packedChannel 1 (byteAt [0xFF#8]) i else 0xFF#8)) := by
  decide +kernel

/-- UP2. -/
theorem test_witness_UpscaleResult :
    let s := latched 0x30#32 (machine 0 [1#8, 2#8, 3#8, 4#8, 5#8, 6#8] 0#32 6#32 0#32 2#32 1#32)
    let W := s.op.width.toNat
    let H := s.op.height.toNat
    InLmem s.memSize.toNat s.op.src.toNat (3 * W * H) ∧
      InLmem s.memSize.toNat s.op.dst.toNat (12 * W * H) ∧
      ¬ Overlap s.op.src.toNat (3 * W * H) s.op.dst.toNat (12 * W * H) ∧
      s.lmem.Holds s.op.src.toNat (3 * W * H) (byteAt [1#8, 2#8, 3#8, 4#8, 5#8, 6#8]) := by
  unfold Memory.Holds
  decide +kernel

/-- A 3 by 2 image: the last column is not read. -/
theorem test_witness_DownscaleResult :
    let image : List Byte := (List.range 18).map (BitVec.ofNat 8)
    let s := latched 0x31#32 (machine 0 image 0#32 0x12#32 0#32 3#32 2#32)
    let W := s.op.width.toNat
    let H := s.op.height.toNat
    InLmem s.memSize.toNat s.op.src.toNat (3 * W * H) ∧
      InLmem s.memSize.toNat s.op.dst.toNat (3 * (W / 2) * (H / 2)) ∧
      ¬ Overlap s.op.src.toNat (3 * W * H) s.op.dst.toNat (3 * (W / 2) * (H / 2)) ∧
      (∀ x, x < 2 * (W / 2) → ∀ y, y < 2 * (H / 2) → ∀ ch, ch < 3 →
        s.lmem.read (s.op.src.toNat + 3 * (y * W + x) + ch) =
          some (BitVec.ofNat 8 (3 * (y * 3 + x) + ch))) := by decide +kernel

/-- UP1, then back. -/
theorem test_witness_DownscaleInvertsUpscale :
    let s := latched 0x30#32 (machine 0 [0x55#8, 0xAA#8, 0xFF#8] 0#32 3#32 0#32 1#32 1#32)
    let t := out (exec .upscale2x s)
    let u := latched 0x31#32
      { t with src := 3#32, dst := 15#32, width := 2#32, height := 2#32 }
    let W := s.op.width.toNat
    let H := s.op.height.toNat
    InLmem s.memSize.toNat s.op.src.toNat (3 * W * H) ∧
      InLmem s.memSize.toNat s.op.dst.toNat (12 * W * H) ∧
      ¬ Overlap s.op.src.toNat (3 * W * H) s.op.dst.toNat (12 * W * H) ∧
      s.lmem.Holds s.op.src.toNat (3 * W * H) (byteAt [0x55#8, 0xAA#8, 0xFF#8]) ∧
      exec .upscale2x s = .next t ∧ u.op.width.toNat = 2 * W ∧ u.op.height.toNat = 2 * H ∧
      (∀ i, i < 12 * W * H → u.lmem.read (u.op.src.toNat + i) = t.lmem.read (s.op.dst.toNat + i)) ∧
      InLmem u.memSize.toNat u.op.src.toNat (12 * W * H) ∧
      InLmem u.memSize.toNat u.op.dst.toNat (3 * W * H) ∧
      ¬ Overlap u.op.src.toNat (12 * W * H) u.op.dst.toNat (3 * W * H) := by
  unfold Memory.Holds
  exact ⟨by decide, by decide, by decide, by decide +kernel, next_out (by decide +kernel),
    by decide +kernel, by decide +kernel, by decide +kernel, by decide +kernel, by decide +kernel,
    by decide +kernel⟩

theorem test_witness_EncodedSide : 4 ≤ 4 ∧ 5 ≤ 10 ∧ 10 ≤ 10 := by decide

/-- UP1's image with bit 7 of channel G of its last pixel inverted. -/
theorem test_witness_OneBitFlipAbsorbed :
    let f := byteAt [0x55#8, 0xAA#8, 0xFF#8]
    let u := latched 0x31#32
      (machine 0 [0x55#8, 0xAA#8, 0xFF#8, 0x55#8, 0xAA#8, 0xFF#8, 0x55#8, 0xAA#8, 0xFF#8, 0x55#8, 0x2A#8,
        0xFF#8] 0#32 12#32 0#32 2#32 2#32)
    u.op.width.toNat = 2 * 1 ∧ u.op.height.toNat = 2 * 1 ∧
      InLmem u.memSize.toNat u.op.src.toNat (12 * 1 * 1) ∧
      InLmem u.memSize.toNat u.op.dst.toNat (3 * 1 * 1) ∧
      ¬ Overlap u.op.src.toNat (12 * 1 * 1) u.op.dst.toNat (3 * 1 * 1) ∧
      (∀ i, i < 3 * 1 * 1 → f i ∈ [0x00#8, 0x55#8, 0xAA#8, 0xFF#8]) ∧ 7 < 8 ∧
      (∀ x, x < 2 * 1 → ∀ y, y < 2 * 1 → ∀ ch, ch < 3 →
        u.lmem.read (u.op.src.toNat + 3 * (y * (2 * 1) + x) + ch) =
          some (if x = 1 ∧ y = 1 ∧ ch = 1 then f (3 * (y / 2 * 1 + x / 2) + ch) ^^^ (1#8 <<< 7)
            else f (3 * (y / 2 * 1 + x / 2) + ch))) := by decide +kernel

/-- The payload "A", its seven buffers one after the other. -/
theorem test_witness_CodecRoundTrip :
    let s := machine 0 [0x41#8] 0#32 0#32 0#32
    let G := (1 + 8 + 2) / 3
    1 < 2 ^ 24 ∧ IsCsqrt (4 * G) 4 ∧ s.lmem.Holds 0 1 (byteAt [0x41#8]) ∧ 0 + 1 ≤ 1 ∧
      1 + (1 + 8) ≤ 10 ∧ 10 + 12 * G ≤ 46 ∧ 46 + 3 * 4 * 4 ≤ 94 ∧ 94 + 12 * 4 * 4 ≤ 286 ∧
      286 + 3 * 4 * 4 ≤ 334 ∧ 334 + 3 * ((4 * 4 + 3) / 4) ≤ s.memSize.toNat := by
  unfold Memory.Holds
  exact ⟨by decide, isCsqrt_of_eq (by decide), by decide +kernel, by decide⟩

/-- The smallest and the greatest size of LMEM. -/
theorem test_witness_ResetSatisfiesInvariant :
    1 ≤ (1#32).toNat ∧ (1#32).toNat ≤ 2 ^ 31 ∧ 1 ≤ (0x80000000#32).toNat ∧
      (0x80000000#32).toNat ≤ 2 ^ 31 := by decide

/-- A busy BPX with a held access and a recorded fault, whose engine moves next. -/
def heldState : State :=
  { latched 0x40#32 { machine 0 [0x41#8] 0#32 0x10#32 1#32 with
      status := ⟨false, true, true, false, 0x02#8, 0x20#8⟩ } with
    hostQueue := [⟨0x28, 32, .read⟩]
    held := true
    schedule := [.engine] }

theorem test_witness_StepKeepsInvariant : heldState.Inv ∧ step heldState = .next (out (step heldState)) := by
  refine ⟨⟨by decide, by decide, by decide, by decide, by decide, by decide, fun _ => ?_, fun _ => ?_⟩,
    next_out (by decide +kernel)⟩
  · exact .inr (.inl ⟨rfl, by decide⟩)
  · exact ⟨rfl, _, _, rfl, by decide⟩

end Sys2Proof.Tests
end

section
/-! The statements of 10_state.md: the latch of an idle BPX (R43), the register map (R22 to R42, R48),
`CTRL` and `STATUS` (R23, R24), `IRQ` (R44), and who writes `ERR` (R27) and `INTEG_OK` (R28). -/

namespace Sys2Proof.Machine

/-! ### Steps that access a register -/

/-- An access to a register completes while `BUSY` = 0, and always where 40_control.md R115 excepts the
register. -/
theorem step_regAccess {s : State} {r : Reg} {k : AccessKind} {rest : List Access}
    (h : s.HostMakes ⟨regOffset r, 32, k⟩ rest) (hb : s.status.busy = false ∨ neverHeld r = true) :
    step s = hostAccess ⟨regOffset r, 32, k⟩
      { s with schedule := (nextTurn s).2, hostQueue := rest, held := false } :=
  step_access h (hb.imp_right fun hr => by rw [holdable_regOffset, hr, Bool.not_true])

/-- A host read of a register that holds a value answers the value and has no side effect
(20_memory.md R72). -/
theorem step_regRead {s : State} {r : Reg} {rest : List Access} {v : Word}
    (h : s.HostMakes ⟨regOffset r, 32, .read⟩ rest) (hb : s.status.busy = false ∨ neverHeld r = true)
    (hv : regValue r s = some v) : step s = .next (s.accessDone rest (.data v)) := by
  have hv' : regValue r { s with schedule := (nextTurn s).2, hostQueue := rest, held := false } =
      some v := by
    rw [← hv]
    cases r <;> rfl
  rw [step_regAccess h hb, hostAccess_reg]
  simp only [hostRead, hv']
  rfl

/-- A host write of a register is what `hostWrite` makes of it. -/
theorem step_regWrite {s : State} {r : Reg} {rest : List Access} {v : Word}
    (h : s.HostMakes ⟨regOffset r, 32, .write v⟩ rest)
    (hb : s.status.busy = false ∨ neverHeld r = true) :
    step s = hostWrite r v
      { s with schedule := (nextTurn s).2, hostQueue := rest, held := false } := by
  rw [step_regAccess h hb, hostAccess_reg]

/-- `CTRL` as a number: `IRQ_EN` in bit 0 (10_state.md R23). -/
theorem zero_append_ofBool (b : Bool) : 0#31 ++ BitVec.ofBool b = BitVec.ofNat 32 b.toNat := by
  cases b <;> rfl

/-- `STATUS` of an idle BPX as a number (10_state.md R24). -/
theorem Status.toWord_of_idle {t : Status} (h : t.busy = false) : t.toWord = BitVec.ofNat 32
    (2 * t.done.toNat + 4 * t.err.toNat + 8 * t.integOk.toNat + 2 ^ 8 * t.errCode.toNat
      + 2 ^ 16 * t.errOp.toNat) := by
  rw [Status.toWord_eq, h, Bool.toNat_false, Nat.zero_add]

/-- Settles O13: each row of the table is the offset and the value of one register. -/
theorem registerReads : Obligations.RegisterReads := by
  unfold Obligations.RegisterReads
  intro s rest off v h hb hrow
  obtain ⟨r, rfl, hv⟩ : ∃ r, off = regOffset r ∧ regValue r s = some v := by
    simp only [← zero_append_ofBool, ← Status.toWord_of_idle hb, List.mem_cons, Prod.mk.injEq,
      List.not_mem_nil, or_false] at hrow
    rcases hrow with ⟨rfl, rfl⟩ | ⟨rfl, rfl⟩ | ⟨rfl, rfl⟩ | ⟨rfl, rfl⟩ | ⟨rfl, rfl⟩ | ⟨rfl, rfl⟩ |
      ⟨rfl, rfl⟩ | ⟨rfl, rfl⟩ | ⟨rfl, rfl⟩ | ⟨rfl, rfl⟩ | ⟨rfl, rfl⟩ | ⟨rfl, rfl⟩ | ⟨rfl, rfl⟩ |
      ⟨rfl, rfl⟩ | ⟨rfl, rfl⟩
    exacts [⟨.id, rfl, rfl⟩, ⟨.ctrl, rfl, rfl⟩, ⟨.status, rfl, rfl⟩, ⟨.cmd, rfl, rfl⟩, ⟨.src, rfl, rfl⟩,
      ⟨.dst, rfl, rfl⟩, ⟨.len, rfl, rfl⟩, ⟨.width, rfl, rfl⟩, ⟨.height, rfl, rfl⟩, ⟨.arg, rfl, rfl⟩,
      ⟨.result, rfl, rfl⟩, ⟨.crcState, rfl, rfl⟩, ⟨.crcResult, rfl, rfl⟩, ⟨.lmemAddr, rfl, rfl⟩,
      ⟨.memSize, rfl, rfl⟩]
  exact step_regRead h (.inl hb) hv

/-- Settles O14: each row of the table is the offset of one register and what `hostWrite` makes of it. -/
theorem registerWrites : Obligations.RegisterWrites := by
  unfold Obligations.RegisterWrites
  intro s t rest off v h hb hrow
  obtain ⟨r, rfl, ht⟩ : ∃ r, off = regOffset r ∧
      hostWrite r v { s with schedule := (nextTurn s).2, hostQueue := rest, held := false } =
        .next t := by
    simp only [List.mem_cons, Prod.mk.injEq, List.not_mem_nil, or_false] at hrow
    rcases hrow with ⟨rfl, rfl⟩ | ⟨rfl, rfl⟩ | ⟨rfl, rfl⟩ | ⟨rfl, rfl⟩ | ⟨rfl, rfl⟩ | ⟨rfl, rfl⟩ |
      ⟨rfl, rfl⟩ | ⟨rfl, rfl⟩ | ⟨rfl, rfl⟩ | ⟨rfl, rfl⟩ | ⟨rfl, rfl⟩ | ⟨rfl, rfl⟩
    exacts [⟨.src, rfl, rfl⟩, ⟨.dst, rfl, rfl⟩, ⟨.len, rfl, rfl⟩, ⟨.width, rfl, rfl⟩, ⟨.height, rfl, rfl⟩,
      ⟨.arg, rfl, rfl⟩, ⟨.crcState, rfl, rfl⟩, ⟨.lmemAddr, rfl, rfl⟩, ⟨.id, rfl, rfl⟩,
      ⟨.result, rfl, rfl⟩, ⟨.crcResult, rfl, rfl⟩, ⟨.memSize, rfl, rfl⟩]
  rw [step_regWrite h (.inl hb), ht]

/-- Settles O15: the write is an acknowledge, never held, and `Status.hostWrite_eq` says what becomes of
each field. -/
theorem statusWriteClears : Obligations.StatusWriteClears := by
  unfold Obligations.StatusWriteClears
  intro s rest v h
  rw [step_regWrite (r := .status) h (.inr rfl), ← Status.hostWrite_eq]
  rfl

/-- A host write of `CTRL` with bit 1 set resets, whatever bit 0 is (10_state.md R23). -/
theorem writeCtrl_of_set {v : Word} {s : State} (h : v.getLsbD 1 = true) :
    writeCtrl v s = resetRegisters s := by
  rw [writeCtrl, if_pos h, softReset]

/-- Settles O16, by the two cases of `writeCtrl`. -/
theorem ctrlWrite : Obligations.CtrlWrite := by
  unfold Obligations.CtrlWrite
  intro s rest v h hb
  have hstep := step_regWrite (r := .ctrl) h (.inl hb)
  refine ⟨fun hclear => ?_, fun hset => ⟨_, hstep, ?_⟩⟩
  · rw [hstep, hostWrite, writeCtrl_of_clear hclear]
    rfl
  · rw [writeCtrl_of_set hset]
    rfl

/-! ### What a step does to `STATUS` -/

/-- What a host access does to `STATUS`: nothing, a soft reset, an acknowledge or an accept. -/
theorem AccessEffect.status_cases {a : Access} {s t : State} (h : AccessEffect a s t) :
    t.status = s.status ∨
      (∃ v, a = ⟨0x04, 32, .write v⟩ ∧ v.getLsbD 1 = true ∧ t.status = Status.reset) ∨
      (∃ v, a = ⟨0x08, 32, .write v⟩ ∧ t.status = s.status.hostWrite v) ∨
      (∃ v, a = ⟨0x0C, 32, .write v⟩ ∧ t.status = s.status.accept) := by
  cases h with
  | none r h => exact .inl (by rw [h]; rfl)
  | portRead b hin hb h => exact .inl (by rw [h]; rfl)
  | portWrite v hin ha h => exact .inl (by rw [h]; rfl)
  | ctrl v ha h =>
    cases hv : v.getLsbD 1 with
    | false => exact .inl (by rw [h, writeCtrl_of_clear hv]; rfl)
    | true => exact .inr (.inl ⟨v, ha, hv, by rw [h, writeCtrl_of_set hv]; rfl⟩)
  | status v ha h => exact .inr (.inr (.inl ⟨v, ha, by rw [h]; rfl⟩))
  | cmd v ha h => exact .inr (.inr (.inr ⟨v, ha, by rw [h]; rfl⟩))
  | reg h => exact .inl (by rw [h])

/-- No command clears `ERR` (10_state.md R27). -/
theorem exec_err {i : Instr} {s t : State} (h : exec i s = .next t) (he : s.status.err = true) :
    t.status.err = true := by
  rcases exec_next h with ⟨c, -, rfl⟩ | heff
  · rw [raiseFault_status]
  · rw [heff.frame]
    exact he

/-- No command but FRAME_CHECK writes `INTEG_OK` (10_state.md R28). -/
theorem exec_integOk {i : Instr} {s t : State} (h : exec i s = .next t) (hi : i ≠ .frameCheck) :
    t.status.integOk = s.status.integOk := by
  rcases exec_next h with ⟨c, -, rfl⟩ | heff
  · simp [raiseFault_status, hi]
  · exact heff.integ hi

/-- What a step that ends in a next state has done to `STATUS`. -/
inductive StatusEffect (s t : State) : Prop where
  /-- A reset. -/
  | reset (hr : s.Resets) (h : t.status = Status.reset)
  /-- No write of `STATUS`. -/
  | kept (h : t.status = s.status)
  /-- The acknowledge of the host. -/
  | acknowledged (v : Word) (rest : List Access) (hm : s.HostMakes ⟨0x08, 32, .write v⟩ rest)
      (h : t.status = s.status.hostWrite v)
  /-- The accept of a command. -/
  | accepted (v : Word) (rest : List Access) (hm : s.HostMakes ⟨0x0C, 32, .write v⟩ rest)
      (h : t.status = s.status.accept)
  /-- The engine has run the latched command: `ERR` stays 1, and only FRAME_CHECK writes `INTEG_OK`. -/
  | engine (hn : (nextTurn s).1 = .engine) (hb : s.status.busy = true)
      (herr : s.status.err = true → t.status.err = true)
      (hinteg : decode s.op.word ≠ .ok .frameCheck → t.status.integOk = s.status.integOk)

/-- Every step that ends in a next state has one of these effects on `STATUS`. -/
theorem step_status {s t : State} (h : step s = .next t) : StatusEffect s t := by
  cases step_next h with
  | hwReset hn h => exact .reset (.inl hn) (by rw [h]; rfl)
  | idle hn h => exact .kept (by rw [h])
  | held a rest hm hb hh h => exact .kept (by rw [h])
  | access a rest hm hh he =>
    rcases he.status_cases with h | ⟨v, rfl, hv, h⟩ | ⟨v, rfl, h⟩ | ⟨v, rfl, h⟩
    · exact .kept h
    · exact .reset (.inr ⟨v, rest, hm, hv⟩) h
    · exact .acknowledged v rest hm h
    · exact .accepted v rest hm h
  | badCmd e hn hb hd h =>
    exact .engine hn hb (fun _ => by simp [h, raiseFault_status])
      (fun _ => by simp [h, raiseFault_status])
  | command i u hn hb hd hu h =>
    refine .engine hn hb (fun he => ?_) (fun hne => ?_) <;> rw [h, State.complete_status]
    · exact exec_err hu he
    · exact (exec_integOk hu fun hi => hne (hi ▸ hd) :)

/-- Settles O25, by what each step does to `STATUS`. -/
theorem errIsSticky : Obligations.ErrIsSticky := by
  unfold Obligations.ErrIsSticky
  intro s t h hs ht
  cases step_status h with
  | reset hr h => exact .inl hr
  | kept h => simp [h, hs] at ht
  | acknowledged v rest hm h =>
    refine .inr ⟨v, rest, hm, ?_⟩
    simpa [h, hs, Status.hostWrite_eq] using ht
  | accepted v rest hm h => simp [h, hs] at ht
  | engine hn hb herr hinteg => simp [herr hs] at ht

/-- Settles O26, by what each step does to `STATUS`. -/
theorem integOkWriters : Obligations.IntegOkWriters := by
  unfold Obligations.IntegOkWriters
  intro s t h hne
  cases step_status h with
  | reset hr h => exact .inl hr
  | kept h => exact absurd (by rw [h]) hne
  | acknowledged v rest hm h => exact absurd (by rw [h, Status.hostWrite_integOk]) hne
  | accepted v rest hm h => exact absurd (by rw [h]; rfl) hne
  | engine hn hb herr hinteg =>
    exact .inr ⟨hn, hb, Classical.not_not.1 fun hd => hne (hinteg hd)⟩

/-- Settles O23: the first part is `State.irq` read off, and after reset `IRQ_EN` is 0. -/
theorem irqLevel : Obligations.IrqLevel := by
  unfold Obligations.IrqLevel
  refine ⟨fun s => ?_, fun size => rfl⟩
  rw [State.irq, Bool.and_eq_true, Bool.or_eq_true]

/-! ### The latch of an idle BPX (10_state.md R43) -/

/-- The latch holds `o`. -/
def State.setLatch (o : Latch) (s : State) : State := { s with op := o }

section setLatch
variable (o : Latch) (s : State)
@[simp] theorem State.setLatch_status : (s.setLatch o).status = s.status := rfl
@[simp] theorem State.setLatch_lmem : (s.setLatch o).lmem = s.lmem := rfl
@[simp] theorem State.setLatch_lmemAddr : (s.setLatch o).lmemAddr = s.lmemAddr := rfl
@[simp] theorem State.setLatch_held : (s.setLatch o).held = s.held := rfl
@[simp] theorem State.setLatch_portInLmem : (s.setLatch o).portInLmem = s.portInLmem := rfl
@[simp] theorem regValue_setLatch (r : Reg) : regValue r (s.setLatch o) = regValue r s := by
  cases r <;> rfl
end setLatch

theorem forgetIdleLatch_setLatch {s : State} (o : Latch) (h : s.status.busy = false) :
    (s.setLatch o).forgetIdleLatch = s.forgetIdleLatch := by
  rw [State.forgetIdleLatch, State.forgetIdleLatch, State.setLatch_status, h]
  rfl

/-- What leaves the latch as it was and `BUSY` at 0 does not tell one latch from another. -/
theorem onNext_forgetIdleLatch_setLatch {r : Result} (o : Latch)
    (h : ∀ t, r = .next t → t.status.busy = false) :
    onNext State.forgetIdleLatch (onNext (State.setLatch o) r) = onNext State.forgetIdleLatch r := by
  cases r with
  | next t => simp only [onNext_next, forgetIdleLatch_setLatch o (h t rfl)]
  | fault _ => rfl
  | refused _ => rfl

theorem portRead_setLatch (o : Latch) (s : State) :
    portRead (s.setLatch o) = onNext (State.setLatch o) (portRead s) := by
  rw [portRead, portRead, State.setLatch_portInLmem, State.setLatch_lmem, State.setLatch_lmemAddr]
  split
  · split <;> rfl
  · rfl

theorem portWrite_setLatch (v : Word) (o : Latch) (s : State) :
    portWrite v (s.setLatch o) = onNext (State.setLatch o) (portWrite v s) := by
  rw [portWrite, portWrite, State.setLatch_portInLmem]
  split <;> rfl

theorem hostRead_setLatch (r : Reg) (o : Latch) (s : State) :
    hostRead r (s.setLatch o) = onNext (State.setLatch o) (hostRead r s) := by
  rw [hostRead, hostRead, regValue_setLatch]
  split
  · rfl
  · exact portRead_setLatch o s

/-- No write of the host sees or changes the latch but the accept and the soft reset. -/
theorem hostWrite_setLatch {r : Reg} {v : Word} (o : Latch) (s : State) (hcmd : r ≠ .cmd)
    (hctrl : r = .ctrl → v.getLsbD 1 = false) :
    hostWrite r v (s.setLatch o) = onNext (State.setLatch o) (hostWrite r v s) := by
  cases r with
  | cmd => exact absurd rfl hcmd
  | ctrl =>
    simp only [hostWrite, writeCtrl_of_clear (hctrl rfl)]
    rfl
  | lmemData => exact portWrite_setLatch v o s
  | id | status | src | dst | len | width | height | arg | result | crcState | crcResult | lmemAddr
  | memSize => rfl

/-- A host access neither sees nor changes the latch, but for a write of `CMD` and a soft reset. -/
theorem hostAccess_setLatch {a : Access} (o : Latch) (s : State) (hcmd : ∀ v, a ≠ ⟨0x0C, 32, .write v⟩)
    (hctrl : ∀ v, a = ⟨0x04, 32, .write v⟩ → v.getLsbD 1 = false) :
    hostAccess a (s.setLatch o) = onNext (State.setLatch o) (hostAccess a s) := by
  cases hr : accessTarget a with
  | none =>
    simp only [hostAccess, hr]
    rfl
  | some r =>
    obtain ⟨off, width, kind⟩ := a
    obtain ⟨rfl, rfl⟩ : off = regOffset r ∧ width = 32 := by simpa using accessTarget_eq_some hr
    rw [hostAccess_reg, hostAccess_reg]
    cases kind with
    | read => exact hostRead_setLatch r o s
    | write v =>
      exact hostWrite_setLatch o s (fun h => hcmd v (h ▸ rfl)) (fun h => hctrl v (h ▸ rfl))

/-- A host access starts no command but by a write of `CMD`. -/
theorem hostAccess_busy {a : Access} {s t : State} (h : hostAccess a s = .next t)
    (hs : s.status.busy = false) (ha : ∀ v, a ≠ ⟨0x0C, 32, .write v⟩) : t.status.busy = false := by
  rcases (hostAccess_next h).status_cases with h | ⟨v, -, -, h⟩ | ⟨v, -, h⟩ | ⟨v, hv, -⟩
  · rw [h, hs]
  · rw [h, Status.reset]
  · rw [h, Status.hostWrite_busy, hs]
  · exact absurd hv (ha v)

/-- A write of `CMD` is an accept (40_control.md R110). -/
theorem hostAccess_cmd (w : Word) (s : State) :
    hostAccess ⟨0x0C, 32, .write w⟩ s = .next ((s.accept w).respond .written) :=
  hostAccess_reg .cmd (.write w) s

/-- A write of `CTRL` with bit 1 set is a soft reset (70_reset_and_hazards.md R273). -/
theorem hostAccess_ctrl_of_set {v : Word} (s : State) (h : v.getLsbD 1 = true) :
    hostAccess ⟨0x04, 32, .write v⟩ s = .next ((resetRegisters s).respond .written) := by
  rw [← writeCtrl_of_set h]
  exact hostAccess_reg .ctrl (.write v) s

/-- An access to an idle BPX comes to the same whatever the latch holds: what writes the latch, the
accept and the soft reset, does so whatever it held. -/
theorem hostAccess_forgetIdleLatch (a : Access) (o : Latch) {s : State} (hs : s.status.busy = false) :
    onNext State.forgetIdleLatch (hostAccess a (s.setLatch o)) =
      onNext State.forgetIdleLatch (hostAccess a s) := by
  by_cases hcmd : ∃ v, a = ⟨0x0C, 32, .write v⟩
  · obtain ⟨w, rfl⟩ := hcmd
    rw [hostAccess_cmd, hostAccess_cmd]
    rfl
  by_cases hreset : ∃ v, a = ⟨0x04, 32, .write v⟩ ∧ v.getLsbD 1 = true
  · obtain ⟨v, rfl, hv⟩ := hreset
    rw [hostAccess_ctrl_of_set _ hv, hostAccess_ctrl_of_set _ hv]
    rfl
  · have hcmd' : ∀ v, a ≠ ⟨0x0C, 32, .write v⟩ := fun v h => hcmd ⟨v, h⟩
    rw [hostAccess_setLatch o s hcmd' fun v h => Bool.eq_false_iff.2 fun hv => hreset ⟨v, h, hv⟩]
    exact onNext_forgetIdleLatch_setLatch o fun t ht => hostAccess_busy ht hs hcmd'

/-- A host without a next access has no step. -/
theorem hostTurn_nil {s : State} (hq : s.hostQueue = []) : hostTurn s = .next s := by
  simp [hostTurn, hq]

/-- The next access of the host to an idle BPX completes. -/
theorem hostTurn_of_idle {s : State} {a : Access} {rest : List Access} (hs : s.status.busy = false)
    (hq : s.hostQueue = a :: rest) :
    hostTurn s = hostAccess a { s with hostQueue := rest, held := false } := by
  simp [hostTurn, hq, hs]

theorem hostTurn_forgetIdleLatch (o : Latch) {s : State} (hs : s.status.busy = false) :
    onNext State.forgetIdleLatch (hostTurn (s.setLatch o)) =
      onNext State.forgetIdleLatch (hostTurn s) := by
  cases hq : s.hostQueue with
  | nil =>
    rw [hostTurn_nil hq, hostTurn_nil (s := s.setLatch o) hq, onNext_next, onNext_next,
      forgetIdleLatch_setLatch o hs]
  | cons a rest =>
    rw [hostTurn_of_idle hs hq, hostTurn_of_idle (s := s.setLatch o) hs hq]
    exact hostAccess_forgetIdleLatch a o (s := { s with hostQueue := rest, held := false }) hs

/-- With `BUSY` = 0 the engine has no step (40_control.md R111). -/
theorem engineTurn_of_idle {s : State} (hs : s.status.busy = false) : engineTurn s = .next s := by
  simp [engineTurn, hs]

theorem engineTurn_forgetIdleLatch (o : Latch) {s : State} (hs : s.status.busy = false) :
    onNext State.forgetIdleLatch (engineTurn (s.setLatch o)) =
      onNext State.forgetIdleLatch (engineTurn s) := by
  rw [engineTurn_of_idle hs, engineTurn_of_idle (s := s.setLatch o) hs, onNext_next, onNext_next,
    forgetIdleLatch_setLatch o hs]

/-- With no command running, a hardware reset does not see the latch, and empties it. -/
theorem hardwareReset_setLatch (o : Latch) {s : State} (hs : s.status.busy = false) :
    hardwareReset (s.setLatch o) = hardwareReset s := by
  simp only [hardwareReset, endHeldAccess, State.setLatch_status, State.setLatch_held, hs,
    Bool.false_eq_true, if_false]
  split <;> rfl

theorem takeTurn_forgetIdleLatch (t : Turn) (o : Latch) {s : State} (hs : s.status.busy = false) :
    onNext State.forgetIdleLatch (takeTurn t (s.setLatch o)) =
      onNext State.forgetIdleLatch (takeTurn t s) := by
  cases t with
  | host => exact hostTurn_forgetIdleLatch o hs
  | engine => exact engineTurn_forgetIdleLatch o hs
  | hwReset => rw [takeTurn, takeTurn, hardwareReset_setLatch o hs]

/-- Settles O12: whose turn it is does not depend on the latch, and no turn of an idle BPX does. -/
theorem idleLatchUnobservable : Obligations.IdleLatchUnobservable := by
  unfold Obligations.IdleLatchUnobservable
  intro s o hs
  exact takeTurn_forgetIdleLatch (nextTurn s).1 o (s := { s with schedule := (nextTurn s).2 }) hs

end Sys2Proof.Machine
end

section
/-! The statements of 20_memory.md: what every step keeps (R60, with 10_state.md R26, R29, 60_exceptions.md
R241, 40_control.md R115), the host port (R62 to R64), ill-formed accesses (R69, R70), and the bytes that
nothing has written (R82). -/

namespace Sys2Proof.Machine

/-! ### LMEM stays canonical and inside `LMEM_SIZE` -/

/-- The memory part of the invariant: canonical form, and every written byte below `size`. -/
structure Memory.Within (m : Memory) (size : Nat) : Prop where
  wf : m.wf
  below : ∀ c ∈ m, c.1 < size

theorem Memory.Within.writeBytes {m : Memory} {size a : Nat} {bs : List Byte} (h : m.Within size)
    (hb : InLmem size a bs.length) : (m.writeBytes a bs).Within size :=
  ⟨Memory.wf_writeBytes h.wf a bs, Memory.in_writeBytes h.below hb⟩

/-- A command stores only into a destination range that has passed its check. -/
theorem exec_lmem_within {i : Instr} {s t : State} (h : exec i s = .next t)
    (hs : s.lmem.Within s.memSize.toNat) : t.lmem.Within s.memSize.toNat := by
  rcases exec_next h with ⟨c, -, rfl⟩ | heff
  · exact hs
  · rcases heff.lmem with hm | ⟨r, bs, -, hlen, hin, hm⟩
    · rwa [hm]
    · rw [hm]
      exact hs.writeBytes (hlen ▸ hin)

theorem Range.clip_inLmem (r : Range) (size : Nat) : InLmem size r.base (r.clip size) := by
  unfold Range.clip
  omega

/-- The free bytes of an abandoned command lie in LMEM. -/
theorem abandonCommand_lmem_within {s : State} (hs : s.lmem.Within s.memSize.toNat) :
    (abandonCommand s).lmem.Within s.memSize.toNat := by
  unfold abandonCommand
  split
  · exact hs
  · rename_i r _
    exact hs.writeBytes (by simpa using r.clip_inLmem s.memSize.toNat)

theorem hardwareReset_lmem_within {s : State} (hs : s.lmem.Within s.memSize.toNat) :
    (hardwareReset s).lmem.Within s.memSize.toNat := by
  rw [hardwareReset_lmem]
  split
  · exact abandonCommand_lmem_within hs
  · exact hs

/-! ### What a host access leaves unchanged -/

@[simp] theorem writeCtrl_lmem (v : Word) (s : State) : (writeCtrl v s).lmem = s.lmem := by
  unfold writeCtrl
  split <;> rfl

@[simp] theorem writeCtrl_memSize (v : Word) (s : State) : (writeCtrl v s).memSize = s.memSize := by
  unfold writeCtrl
  split <;> rfl

@[simp] theorem writeCtrl_held (v : Word) (s : State) : (writeCtrl v s).held = s.held := by
  unfold writeCtrl
  split <;> rfl

/-- Only the port stores into LMEM, one byte at `LMEM_ADDR` < `LMEM_SIZE`. -/
theorem AccessEffect.lmem_cases {a : Access} {s t : State} (h : AccessEffect a s t) :
    t.lmem = s.lmem ∨
      ∃ b, s.portInLmem = true ∧ t.lmem = s.lmem.writeBytes s.lmemAddr.toNat [b] := by
  cases h with
  | none r h => exact .inl (by rw [h]; rfl)
  | portRead b hin hb h => exact .inl (by rw [h]; rfl)
  | portWrite v hin ha h => exact .inr ⟨_, hin, by rw [h]; rfl⟩
  | ctrl v ha h => exact .inl (by rw [h, State.respond_lmem, writeCtrl_lmem])
  | status v ha h => exact .inl (by rw [h]; rfl)
  | cmd v ha h => exact .inl (by rw [h]; rfl)
  | reg h => exact .inl (by rw [h])

theorem AccessEffect.memSize_held {a : Access} {s t : State} (h : AccessEffect a s t) :
    t.memSize = s.memSize ∧ t.held = s.held := by
  cases h with
  | none r h => exact ⟨by rw [h]; rfl, by rw [h]; rfl⟩
  | portRead b hin hb h => exact ⟨by rw [h]; rfl, by rw [h]; rfl⟩
  | portWrite v hin ha h => exact ⟨by rw [h]; rfl, by rw [h]; rfl⟩
  | ctrl v ha h => simp [h]
  | status v ha h => exact ⟨by rw [h]; rfl, by rw [h]; rfl⟩
  | cmd v ha h => exact ⟨by rw [h]; rfl, by rw [h]; rfl⟩
  | reg h => exact ⟨by rw [h], by rw [h]⟩

theorem State.portInLmem_iff (s : State) :
    s.portInLmem = true ↔ s.lmemAddr.toNat < s.memSize.toNat := decide_eq_true_iff

theorem AccessEffect.lmem_within {a : Access} {s t : State} (h : AccessEffect a s t)
    (hs : s.lmem.Within s.memSize.toNat) : t.lmem.Within s.memSize.toNat := by
  rcases h.lmem_cases with hm | ⟨b, hin, hm⟩
  · rwa [hm]
  · rw [hm]
    exact hs.writeBytes (.inr (s.portInLmem_iff.1 hin))

/-- No step writes `MEMSIZE` (10_state.md R42). -/
theorem step_memSize {s t : State} (h : step s = .next t) : t.memSize = s.memSize := by
  cases step_next h with
  | hwReset hn h => rw [h, hardwareReset_memSize]
  | idle hn h => rw [h]
  | held a rest hm hb hh h => rw [h]
  | access a rest hm hh he => exact he.memSize_held.1
  | badCmd e hn hb hd h => rw [h]; rfl
  | command i u hn hb hd hu h => rw [h, exec_frame hu]; rfl

/-- Every step keeps LMEM canonical and inside `LMEM_SIZE` (20_memory.md R60). -/
theorem step_lmem_within {s t : State} (h : step s = .next t) (hs : s.lmem.Within s.memSize.toNat) :
    t.lmem.Within s.memSize.toNat := by
  cases step_next h with
  | hwReset hn h => exact h ▸ hardwareReset_lmem_within hs
  | idle hn h => exact h ▸ hs
  | held a rest hm hb hh h => exact h ▸ hs
  | access a rest hm hh he => exact he.lmem_within hs
  | badCmd e hn hb hd h => exact h ▸ hs
  | command i u hn hb hd hu h => exact h ▸ (exec_lmem_within hu hs :)

/-! ### `STATUS` stays consistent -/

/-- The `STATUS` part of the invariant. -/
structure Status.Inv (t : Status) : Prop where
  busy_not_done : t.busy = true → t.done = false
  no_err : t.err = false → t.errCode = 0#8 ∧ t.errOp = 0#8
  err_known : t.err = true → RaisedBy t.errCode t.errOp

theorem Status.inv_reset : Status.reset.Inv :=
  ⟨fun _ => rfl, fun _ => ⟨rfl, rfl⟩, fun h => absurd h (by decide)⟩

theorem Status.Inv.accept {t : Status} (h : t.Inv) : t.accept.Inv :=
  ⟨fun _ => rfl, h.no_err, h.err_known⟩

theorem Status.Inv.complete {t : Status} (h : t.Inv) : t.complete.Inv :=
  ⟨fun hb => absurd hb Bool.false_ne_true, h.no_err, h.err_known⟩

theorem Status.Inv.setInteg {t : Status} (h : t.Inv) (b : Bool) : (t.setInteg b).Inv :=
  ⟨h.busy_not_done, h.no_err, h.err_known⟩

/-- The acknowledge clears the code and the opcode together with `ERR` (10_state.md R29). -/
theorem Status.Inv.hostWrite {t : Status} (h : t.Inv) (v : Word) : (t.hostWrite v).Inv := by
  rw [Status.hostWrite_eq]
  have hdone : t.busy = true → (if v.getLsbD 1 then false else t.done) = false :=
    fun hb => by simp [h.busy_not_done hb]
  cases hv : v.getLsbD 2 with
  | true => exact ⟨hdone, fun _ => ⟨rfl, rfl⟩, fun he => absurd he Bool.false_ne_true⟩
  | false => exact ⟨hdone, h.no_err, h.err_known⟩

/-- Recording a fault that the latched opcode raises keeps `STATUS` consistent. -/
theorem raiseFault_status_inv {cmd : Option Instr} {code : FaultCode} {s : State}
    (hs : s.status.Inv) (hc : RaisedBy code.code (opField s.op.word)) :
    (raiseFault cmd code s).status.Inv := by
  rw [raiseFault_status]
  exact ⟨hs.busy_not_done, fun he => absurd he.symm Bool.false_ne_true, fun _ => hc⟩

/-- The fault of a command is recorded with the command's own opcode, since that is what is latched. -/
theorem exec_status_inv {i : Instr} {s t : State} (h : exec i s = .next t)
    (hi : decode s.op.word = .ok i) (hs : s.status.Inv) : t.status.Inv := by
  rcases exec_next h with ⟨c, hc, rfl⟩ | heff
  · exact raiseFault_status_inv hs ((decode_eq_ok.1 hi).2 ▸ hc)
  · rw [heff.frame]
    exact hs.setInteg _

theorem AccessEffect.status_inv {a : Access} {s t : State} (h : AccessEffect a s t)
    (hs : s.status.Inv) : t.status.Inv := by
  rcases h.status_cases with h | ⟨v, -, -, h⟩ | ⟨v, -, h⟩ | ⟨v, -, h⟩ <;> rw [h]
  · exact hs
  · exact Status.inv_reset
  · exact hs.hostWrite v
  · exact hs.accept

/-- Every step keeps `STATUS` consistent (10_state.md R26, R29, 60_exceptions.md R241). -/
theorem step_status_inv {s t : State} (h : step s = .next t) (hs : s.status.Inv) : t.status.Inv := by
  cases step_next h with
  | hwReset hn h => exact h ▸ Status.inv_reset
  | idle hn h => exact h ▸ hs
  | held a rest hm hb hh h => exact h ▸ hs
  | access a rest hm hh he => exact he.status_inv hs
  | badCmd e hn hb hd h =>
    have hr := raiseFault_status_inv (cmd := none) (code := .badCmd)
      (s := { s with schedule := (nextTurn s).2 }) hs (.inl rfl)
    exact h ▸ hr.complete
  | command i u hn hb hd hu h => exact h ▸ (exec_status_inv hu hd hs).complete

/-! ### What is held -/

/-- The part of the invariant about the held access (40_control.md R115). -/
def State.HeldInv (s : State) : Prop :=
  s.held = true → s.status.busy = true ∧ ∃ a rest, s.hostQueue = a :: rest ∧ holdable a = true

theorem State.heldInv_of_not_held {s : State} (h : s.held = false) : s.HeldInv :=
  fun hh => absurd (h.symm.trans hh) (by decide)

/-- Every step that ends an access or a command ends the hold; the host's turn begins one only for an
access that must wait. -/
theorem step_heldInv {s t : State} (h : step s = .next t) (hs : s.HeldInv) : t.HeldInv := by
  cases step_next h with
  | hwReset hn h => exact State.heldInv_of_not_held (by rw [h, hardwareReset_held])
  | idle hn h => exact h ▸ hs
  | held a rest hm hb hh h => exact h ▸ fun _ => ⟨hb, a, rest, hm.2, hh⟩
  | access a rest hm hh he => exact State.heldInv_of_not_held he.memSize_held.2
  | badCmd e hn hb hd h => exact State.heldInv_of_not_held (h ▸ rfl)
  | command i u hn hb hd hu h => exact State.heldInv_of_not_held (h ▸ rfl)

/-- Settles O60: a step keeps each part of the invariant by itself. -/
theorem stepKeepsInvariant : Obligations.StepKeepsInvariant := by
  unfold Obligations.StepKeepsInvariant
  intro s t hs h
  have hsize := step_memSize h
  have hlmem := step_lmem_within h ⟨hs.lmem_wf, hs.lmem_in⟩
  have hstatus := step_status_inv h ⟨hs.busy_not_done, hs.no_err, hs.err_known⟩
  rw [← hsize] at hlmem
  exact {
    lmem_wf := hlmem.wf
    lmem_in := hlmem.below
    size_pos := hsize ▸ hs.size_pos
    size_le := hsize ▸ hs.size_le
    busy_not_done := hstatus.busy_not_done
    no_err := hstatus.no_err
    err_known := hstatus.err_known
    held_busy := step_heldInv h hs.held_busy }

/-! ### The host port (20_memory.md R62 to R64) -/

/-- A write of the port inside LMEM stores one byte and advances `LMEM_ADDR`. -/
theorem portWrite_of_lt {v : Word} {s : State} (h : s.lmemAddr.toNat < s.memSize.toNat) :
    portWrite v s =
      .next (((s.store s.lmemAddr.toNat [v.extractLsb' 0 8]).advancePort).respond .written) := by
  rw [portWrite, if_pos (s.portInLmem_iff.2 h)]

/-- A read of the port inside LMEM answers a byte that has a value and advances `LMEM_ADDR`. -/
theorem portRead_of_some {s : State} {b : Byte} (h : s.lmemAddr.toNat < s.memSize.toNat)
    (hb : s.lmem.read s.lmemAddr.toNat = some b) :
    portRead s = .next (s.advancePort.respond (.data (b.setWidth 32))) := by
  rw [portRead, if_pos (s.portInLmem_iff.2 h)]
  simp only [hb]

/-- A read of the port inside LMEM stops at a byte that has no value. -/
theorem portRead_of_none {s : State} (h : s.lmemAddr.toNat < s.memSize.toNat)
    (hb : s.lmem.read s.lmemAddr.toNat = none) : portRead s = .fault .unwrittenByte := by
  rw [portRead, if_pos (s.portInLmem_iff.2 h)]
  simp only [hb]

/-- Past LMEM either access to the port ends in a bus error. -/
theorem portAccess_of_le {k : AccessKind} {s : State} (h : s.memSize.toNat ≤ s.lmemAddr.toNat) :
    hostAccess ⟨regOffset .lmemData, 32, k⟩ s = .next (s.respond .busError) := by
  have hout : ¬ s.portInLmem = true := fun hin => absurd (s.portInLmem_iff.1 hin) (Nat.not_lt.2 h)
  rw [hostAccess_reg]
  cases k with
  | read => exact if_neg hout
  | write v => exact if_neg hout

/-- `LMEM_ADDR` after an access, as a number. -/
theorem add_one_eq_ofNat (a : Word) : a + 1#32 = BitVec.ofNat 32 ((a.toNat + 1) % 2 ^ 32) := by
  apply BitVec.eq_of_toNat_eq
  simp

/-- The byte a port write stores, as a number. -/
theorem lowByte_eq_ofNat (v : Word) : v.extractLsb' 0 8 = BitVec.ofNat 8 (v.toNat % 256) := by
  apply BitVec.eq_of_toNat_eq
  simp [BitVec.extractLsb'_toNat]

/-- Settles O19: the write is `portWrite_of_lt`, and reading after a one-byte store gives the rest. -/
theorem HostPort.portWrite : Obligations.PortWrite := by
  unfold Obligations.PortWrite
  intro s rest v h hb hin
  refine ⟨_, (step_regWrite (r := .lmemData) h (.inl hb)).trans (portWrite_of_lt hin), ?_, ?_, ?_⟩
  · rw [← add_one_eq_ofNat]
    rfl
  · rw [← lowByte_eq_ofNat]
    exact Memory.read_writeBytes_in (k := 0) Nat.one_pos
  · exact Memory.writeBytes_sameOutside _ _ _ rfl

/-- A read of the port while `BUSY` = 0 is `portRead`. -/
theorem step_portRead {s : State} {rest : List Access} (h : s.HostMakes ⟨0x38, 32, .read⟩ rest)
    (hb : s.status.busy = false) :
    step s = portRead { s with schedule := (nextTurn s).2, hostQueue := rest, held := false } := by
  rw [step_regAccess (r := .lmemData) h (.inl hb), hostAccess_reg]
  rfl

/-- Settles O20, by `portRead_of_some`. -/
theorem HostPort.portRead : Obligations.PortRead := by
  unfold Obligations.PortRead
  intro s rest b h hb hin hbyte
  rw [← add_one_eq_ofNat, BitVec.ofNat_toNat]
  exact (step_portRead h hb).trans (portRead_of_some hin hbyte)

/-- Settles O21: the access completes, and past LMEM it is a bus error. -/
theorem HostPort.portBusError : Obligations.PortBusError := by
  unfold Obligations.PortBusError
  intro s rest k h hb hout
  exact (step_regAccess (r := .lmemData) h (.inl hb)).trans (portAccess_of_le hout)

/-! ### Ill-formed accesses (20_memory.md R69, R70) -/

/-- An access that reaches no register is never held (40_control.md R115) and ends in a bus error. -/
theorem step_noTarget {s : State} {a : Access} {rest : List Access} (h : s.HostMakes a rest)
    (ha : accessTarget a = none) : step s = .next (s.accessDone rest .busError) := by
  have hheld : holdable a = false := by simp only [holdable, ha]
  rw [step_access h (.inr hheld), State.accessDone_eq]
  simp only [hostAccess, ha]

/-- Settles O22: each of the three ways to be ill formed leaves the access without a register. -/
theorem illFormedAccessBusError : Obligations.IllFormedAccessBusError := by
  unfold Obligations.IllFormedAccessBusError
  intro s a rest h ha
  exact step_noTarget h (accessTarget_eq_none ha)

/-! ### Bytes that nothing has written (20_memory.md R82) -/

/-- Each of the `n` bytes from address `a` on has a value. -/
def Memory.Written (m : Memory) (a n : Nat) : Prop := ∀ k, k < n → ∃ b, m.read (a + k) = some b

/-- A read of written bytes answers, also of a part of them. -/
theorem Memory.Written.readBytes {m : Memory} {a n : Nat} (h : m.Written a n) {i l : Nat}
    (hl : i + l ≤ n) : ∃ bs, m.readBytes (a + i) l = some bs := by
  rw [← Option.ne_none_iff_exists', ne_eq, Memory.readBytes_eq_none]
  rintro ⟨k, hk, hnone⟩
  obtain ⟨b, hb⟩ := h (i + k) (by omega)
  rw [Nat.add_assoc, hb] at hnone
  cases hnone

/-- Pixel `(x, y)` of a `w` by `h` image lies in the image. -/
theorem pixel_offset_lt {w h x y ch : Nat} (hx : x < w) (hy : y < h) (hch : ch < 3) :
    3 * (y * w + x) + ch < 3 * w * h := by
  have hrow : (y + 1) * w ≤ h * w := Nat.mul_le_mul_right w hy
  have hw : 3 * w * h = 3 * (h * w) := by ring
  rw [Nat.succ_mul] at hrow
  omega

/-- A channel of a pixel inside a written image has a value. -/
theorem Memory.Written.read_pixel {m : Memory} {a w h x y ch : Nat} (hm : m.Written a (3 * w * h))
    (hx : x < w) (hy : y < h) (hch : ch < 3) : ∃ b, m.read (pixAddr a w x y + ch) = some b := by
  rw [pixAddr, Nat.add_assoc]
  exact hm _ (pixel_offset_lt hx hy hch)

/-- The four samples of a 2 by 2 block inside a written image have values. -/
theorem Memory.Written.blockMean {m : Memory} {a w h x y ch : Nat} (hm : m.Written a (3 * w * h))
    (hx : x < w / 2) (hy : y < h / 2) (hch : ch < 3) : ∃ b, blockMean m a w x y ch = some b := by
  obtain ⟨b₀, h₀⟩ := hm.read_pixel (x := 2 * x) (y := 2 * y) (by omega) (by omega) hch
  obtain ⟨b₁, h₁⟩ := hm.read_pixel (x := 2 * x + 1) (y := 2 * y) (by omega) (by omega) hch
  obtain ⟨b₂, h₂⟩ := hm.read_pixel (x := 2 * x) (y := 2 * y + 1) (by omega) (by omega) hch
  obtain ⟨b₃, h₃⟩ := hm.read_pixel (x := 2 * x + 1) (y := 2 * y + 1) (by omega) (by omega) hch
  exact ⟨boxMean b₀ b₁ b₂ b₃, by simp only [Machine.blockMean, h₀, h₁, h₂, h₃]⟩

/-- A written image can be downscaled: every sample it reads lies in the image. -/
theorem Memory.Written.downscaleRead {m : Memory} {a w h : Nat} (hm : m.Written a (3 * w * h)) :
    ∃ bs, downscaleRead m a w h = some bs := by
  rw [← Option.ne_none_iff_exists', ne_eq, Machine.downscaleRead, readAll_eq_none]
  rintro ⟨k, hk, hnone⟩
  have hpix : k / 3 < w / 2 * (h / 2) := by
    rw [List.mem_range, Nat.mul_assoc] at hk
    omega
  have hw : 0 < w / 2 := Nat.pos_of_mul_pos_right (Nat.zero_lt_of_lt hpix)
  obtain ⟨b, hb⟩ := hm.blockMean (ch := k % 3) (Nat.mod_lt (k / 3) hw)
    (Nat.div_lt_of_lt_mul hpix) (Nat.mod_lt k (by decide))
  rw [hb] at hnone
  cases hnone

/-- Recording the fault of a check is going on; so it is enough that the effects go on. -/
theorem withChecks_goes_on {i : Instr} {s : State} {e : Result} (h : ∃ t, e = .next t) :
    ∃ t, withChecks i s e = .next t := by
  unfold withChecks
  split
  · exact ⟨_, rfl⟩
  · exact h

/-- Reading bytes that have a value is going on. -/
theorem withBytes_goes_on {o : Option (List Byte)} {k : List Byte → Result}
    (ho : ∃ bs, o = some bs) (hk : ∀ bs, ∃ t, k bs = .next t) : ∃ t, withBytes o k = .next t := by
  obtain ⟨bs, rfl⟩ := ho
  exact hk bs

/-- FRAME_CHECK reads its header once the buffer is known to be 8 bytes long, and the rest up to the
declared length once that is known to fit. -/
theorem execFrameCheck_goes_on {s : State} (hm : s.lmem.Written s.op.srcAddr s.op.count) :
    ∃ t, execFrameCheck s = .next t := by
  refine withChecks_goes_on ?_
  split
  · exact ⟨_, rfl⟩
  · rename_i hlen
    rw [Config.headerBytes] at hlen
    refine withBytes_goes_on (hm.readBytes (i := 0) (by rw [Config.headerBytes]; omega)) fun hdr => ?_
    dsimp only
    split
    · exact ⟨_, rfl⟩
    · rename_i hd
      rw [Config.headerBytes] at hd
      exact withBytes_goes_on (hm.readBytes (i := 4) (by omega)) fun body => ⟨_, rfl⟩

/-- A command whose source bytes all have a value reaches a next state. -/
theorem exec_goes_on {i : Instr} {s : State}
    (h : ∀ r, srcRange i s.op = some r → s.lmem.Written r.base r.size) : ∃ t, exec i s = .next t := by
  cases i with
  | nop | crcInit | crcByte | quant | dequant => exact ⟨_, rfl⟩
  | crcUpdate | pack | canvas | unpack | upscale2x | frameBuild =>
    exact withChecks_goes_on (withBytes_goes_on ((h _ rfl).readBytes (i := 0) (Nat.zero_add _).le)
      fun bs => ⟨_, rfl⟩)
  | downscale2x =>
    exact withChecks_goes_on (withBytes_goes_on (h _ rfl).downscaleRead fun bs => ⟨_, rfl⟩)
  | frameCheck => exact execFrameCheck_goes_on (h _ rfl)

/-- CRC_UPDATE reads all of its range, so it stops at a byte of it that has no value. -/
theorem exec_crcUpdate_unwritten {s : State} {k : Nat}
    (hin : InLmem s.memSize.toNat s.op.src.toNat s.op.len.toNat) (hk : k < s.op.len.toNat)
    (hnone : s.lmem.read (s.op.src.toNat + k) = none) :
    exec .crcUpdate s = .fault .unwrittenByte := by
  have hread : s.lmem.readBytes s.op.srcAddr s.op.count = none :=
    Memory.readBytes_eq_none.2 ⟨k, hk, hnone⟩
  rw [exec, execCrcUpdate, withChecks_of_none (firstFault_of_source rfl rfl hin), hread]
  rfl

/-- Settles O34: every byte a command reads is one of its source range, and the two stops are a read of
a byte without a value. -/
theorem stopsOnlyAtUnwrittenBytes : Obligations.StopsOnlyAtUnwrittenBytes := by
  unfold Obligations.StopsOnlyAtUnwrittenBytes
  refine ⟨fun i s h => exec_goes_on h, fun s k => exec_crcUpdate_unwritten, ?_⟩
  intro s rest h hb hin hnone
  exact (step_portRead h hb).trans (portRead_of_none hin hnone)

end Sys2Proof.Machine
end

section
/-! The statements of 30_encoding.md: the opcode map (R94) and what the decoder accepts and rejects (R90,
R95, R96), and the ranges of the commands and what they store (R97, 00_scope.md R11). -/

namespace Sys2Proof

/-! ### The two fields of a command word -/

/-- A word is its fields `RSVD` and `OP` and nothing more (R90). -/
theorem word_eq_append_iff {w : Word} {r : BitVec 24} {op : Byte} :
    w = r ++ op ↔ rsvdField w = r ∧ opField w = op := by
  constructor
  · rintro rfl
    exact ⟨BitVec.extractLsb'_append_eq_left, BitVec.extractLsb'_append_eq_right⟩
  · rintro ⟨rfl, rfl⟩
    apply BitVec.eq_of_toNat_eq
    rw [BitVec.toNat_append, ← Nat.shiftLeft_add_eq_or_of_lt (opField w).isLt, rsvdField_toNat,
      opField_toNat, Nat.shiftLeft_eq]
    omega

/-- Both sides say that `RSVD` is 0 and `OP` is the opcode of the command. -/
theorem decode_eq_ok_iff_eq_encode {w : Word} {i : Instr} : decode w = .ok i ↔ w = encode i := by
  rw [decode_eq_ok, encode, word_eq_append_iff]

/-- Settles O2, by the two fields of the word. -/
theorem decodeInvertsEncode : Obligations.DecodeInvertsEncode := by
  unfold Obligations.DecodeInvertsEncode
  exact fun _ _ => decode_eq_ok_iff_eq_encode

/-! ### The opcodes and the words that are rejected -/

/-- The defined opcodes are the opcodes of the commands (R94). -/
theorem mem_definedOps {op : Byte} : op ∈ definedOps ↔ ∃ i, op = opcode i := by
  constructor
  · have htable : definedOps = [Instr.nop, .crcInit, .crcUpdate, .crcByte, .frameBuild, .frameCheck,
        .quant, .dequant, .pack, .canvas, .unpack, .upscale2x, .downscale2x].map opcode := rfl
    rw [htable, List.mem_map]
    rintro ⟨i, -, hi⟩
    exact ⟨i, hi.symm⟩
  · rintro ⟨i, rfl⟩
    cases i <;> decide

/-- The field `OP` is a defined opcode exactly when bits 7:0 are one of the numbers of R94. -/
theorem opField_mem_definedOps_iff (w : Word) :
    opField w ∈ definedOps ↔ w.toNat % 256 ∈
      [0x00, 0x01, 0x02, 0x03, 0x40, 0x41, 0x10, 0x11, 0x20, 0x21, 0x22, 0x30, 0x31] := by
  rw [← opField_toNat, ← List.mem_map_of_injective (fun _ _ h => BitVec.eq_of_toNat_eq h)]
  rfl

theorem rsvdField_eq_zero_iff (w : Word) : rsvdField w = 0#24 ↔ w.toNat / 256 = 0 := by
  rw [← rsvdField_toNat, BitVec.toNat_eq]
  rfl

/-- The decoder accepts exactly the words with `RSVD` = 0 and a defined `OP` (R95). -/
theorem decode_accepts_iff (w : Word) :
    (∃ i, decode w = .ok i) ↔ rsvdField w = 0#24 ∧ opField w ∈ definedOps := by
  simp only [decode_eq_ok, exists_and_left, mem_definedOps]

theorem wordWf_iff (w : Word) : wordWf w = true ↔ rsvdField w = 0#24 ∧ opField w ∈ definedOps := by
  rw [wordWf, Bool.and_eq_true, beq_iff_eq, List.contains_iff_mem]

/-- The decoder is total: it rejects exactly what it does not accept. -/
theorem decode_rejects_iff (w : Word) : (∃ e, decode w = .error e) ↔ ¬ ∃ i, decode w = .ok i := by
  cases decode w <;> simp

/-- Settles O3: the rejected words are those the decoder does not accept, written on numbers, and
`wordWf` tests what it accepts. -/
theorem illegalWordsRejected : Obligations.IllegalWordsRejected := by
  unfold Obligations.IllegalWordsRejected
  intro w
  constructor
  · rw [decode_rejects_iff, decode_accepts_iff, not_and_or, rsvdField_eq_zero_iff,
      opField_mem_definedOps_iff]
  · rw [wordWf_iff, decode_accepts_iff]

/-- Settles O1: each word is the one that encodes its command. -/
theorem commandWordsDecode : Obligations.CommandWordsDecode := by
  unfold Obligations.CommandWordsDecode
  simp only [decode_eq_ok_iff_eq_encode]
  decide

end Sys2Proof

namespace Sys2Proof.Machine

/-! ### The ranges of the commands -/

theorem IsCsqrt.eq_csqrt {n side : Nat} (h : IsCsqrt n side) : side = csqrt n :=
  Nat.le_antisymm (h.2 _ (csqrt_spec n).1) ((csqrt_spec n).2 _ h.1)

/-- Settles O31: R97 is what the tables of ranges say, and a least number is unique. -/
theorem commandRanges : Obligations.CommandRanges := by
  unfold Obligations.CommandRanges
  intro op
  refine ⟨rfl, rfl, rfl, rfl, rfl, rfl, rfl, rfl, rfl, ?_, rfl, rfl, rfl, rfl, rfl, rfl, ?_⟩
  · intro side hside
    rw [hside.eq_csqrt]
    rfl
  · intro i hi
    fin_cases hi <;> exact ⟨rfl, rfl⟩

/-- A command leaves LMEM as it was, in particular where it records a fault, or makes one store that
fills its destination range. -/
theorem exec_lmem_cases {i : Instr} {s t : State} (h : exec i s = .next t) :
    t.lmem = s.lmem ∨ ∃ r bs, dstRange i s.op = some r ∧ bs.length = r.size ∧
      t.lmem = s.lmem.writeBytes r.base bs := by
  rcases exec_next h with ⟨c, -, rfl⟩ | heff
  · exact .inl rfl
  · exact heff.lmem.imp_right fun ⟨r, bs, hr, hlen, _, hm⟩ => ⟨r, bs, hr, hlen, hm⟩

/-- Settles O30: the one store a command can make lies in its destination range. -/
theorem storesOnlyInDestination : Obligations.StoresOnlyInDestination := by
  unfold Obligations.StoresOnlyInDestination
  intro i s t h
  rcases exec_lmem_cases h with hm | ⟨r, bs, hr, hlen, hm⟩
  · rw [hm]
    exact ⟨fun _ _ => rfl, fun _ _ _ _ => rfl⟩
  · rw [hm, hr]
    refine ⟨nofun, ?_⟩
    rintro _ ⟨rfl⟩
    exact s.lmem.writeBytes_sameOutside r.base bs hlen

end Sys2Proof.Machine
end

section
/-! The statements of 40_control.md: accept (R110), the engine's turn and completion (R111, R112, R116),
what no command writes (R113), NOP (R114), held and excepted accesses (R115), and the pipelines (R117). -/

namespace Sys2Proof.Machine

/-! ### The engine's turn (R111, R116) -/

/-- With `BUSY` = 1 the engine's turn is the engine step on the latched command. -/
theorem step_engine_of_busy {s : State} (hn : (nextTurn s).1 = .engine) (hb : s.status.busy = true) :
    step s = engineStep { s with schedule := (nextTurn s).2 } := by
  rw [step_engine hn, engineTurn]
  exact if_pos hb

theorem engineStep_of_ok {s : State} {i : Instr} (hd : decode s.op.word = .ok i) :
    engineStep s = onNext State.complete (exec i s) := by
  simp only [engineStep, hd]

theorem engineStep_of_error {s : State} {e : DecodeError} (hd : decode s.op.word = .error e) :
    engineStep s = .next (raiseFault none .badCmd s).complete := by
  simp only [engineStep, hd]

/-- What the engine has done when its step ends: recorded `BADCMD`, or run the decoded command; then it
has completed. -/
theorem engineStep_next {s t : State} (h : engineStep s = .next t) :
    t = (raiseFault none .badCmd s).complete ∨
      ∃ i u, decode s.op.word = .ok i ∧ exec i s = .next u ∧ t = u.complete := by
  cases hd : decode s.op.word with
  | error e =>
    rw [engineStep_of_error hd] at h
    cases h
    exact .inl rfl
  | ok i =>
    rw [engineStep_of_ok hd] at h
    obtain ⟨u, hu, ht⟩ := onNext_eq_next h
    exact .inr ⟨i, u, rfl, hu, ht⟩

/-- A turn put first in the schedule comes next. -/
theorem nextTurn_latchNext (w : Word) (s : State) :
    nextTurn (s.latchNext w) = (.engine, s.schedule) := rfl

theorem withFetchWord_encode (s : State) (i : Instr) :
    s.withFetchWord 32 (encode i).toNat = s.latchNext (encode i) := by
  rw [State.withFetchWord, Nat.mod_eq_of_lt (encode i).isLt, BitVec.ofNat_toNat, BitVec.setWidth_eq]

/-- Settles O4: the turn is an engine step, and the word latched by `withFetchWord` is the one that
encodes the command. -/
theorem stepRunsDecodedCommand : Obligations.StepRunsDecodedCommand := by
  unfold Obligations.StepRunsDecodedCommand
  constructor
  · intro s i hn hb hd
    rw [step_engine_of_busy hn hb]
    exact engineStep_of_ok hd
  · intro s i
    have hd : decode (encode i) = .ok i := decode_eq_ok_iff_eq_encode.2 rfl
    rw [withFetchWord_encode, step_engine_of_busy (by rw [nextTurn_latchNext]) rfl]
    exact engineStep_of_ok hd

/-- The fault fields after a command: as they were, or a fault that R241 lets the command raise. -/
theorem exec_faultFields {i : Instr} {s t : State} (h : exec i s = .next t) :
    (t.status.err = s.status.err ∧ t.status.errCode = s.status.errCode ∧
        t.status.errOp = s.status.errOp) ∨
      (t.status.err = true ∧ RaisedBy t.status.errCode (opcode i) ∧
        t.status.errOp = opField s.op.word) := by
  rcases exec_next h with ⟨c, hc, rfl⟩ | heff
  · rw [raiseFault_status]
    exact .inr ⟨rfl, hc, rfl⟩
  · rw [heff.frame]
    exact .inl ⟨rfl, rfl, rfl⟩

/-- The fault fields after an engine step: as they were, or a fault of the latched word. -/
theorem engineStep_faultFields {s t : State} (h : engineStep s = .next t) :
    (t.status.err = s.status.err ∧ t.status.errCode = s.status.errCode ∧
        t.status.errOp = s.status.errOp) ∨
      (t.status.err = true ∧ RaisedBy t.status.errCode t.status.errOp ∧
        t.status.errOp = opField s.op.word) := by
  rcases engineStep_next h with rfl | ⟨i, u, hd, hu, rfl⟩
  · rw [State.complete_status, raiseFault_status]
    exact .inr ⟨rfl, .inl rfl, rfl⟩
  · refine (exec_faultFields hu).imp_right fun ⟨herr, hcode, hop⟩ => ⟨herr, ?_, hop⟩
    rw [← (decode_eq_ok.1 hd).2, ← hop] at hcode
    exact hcode

/-- What an engine step leaves unchanged, a fault or not (R113). -/
theorem engineStep_frame {s t : State} (h : engineStep s = .next t) :
    t = { s with
      status := t.status, result := t.result, crcState := t.crcState, lmem := t.lmem
      held := false } := by
  rcases engineStep_next h with rfl | ⟨i, u, -, hu, rfl⟩
  · rfl
  · rw [exec_frame hu]
    rfl

/-- The completion writes (R111). -/
theorem engineStep_completes {s t : State} (h : engineStep s = .next t) :
    t.status.busy = false ∧ t.status.done = true := by
  rcases engineStep_next h with rfl | ⟨i, u, -, -, rfl⟩ <;> exact ⟨rfl, rfl⟩

/-- Settles O6: the engine step completes, and its fault fields are those of the latched word. -/
theorem engineStepCompletes : Obligations.EngineStepCompletes := by
  unfold Obligations.EngineStepCompletes
  constructor
  · intro s t hn hb h
    rw [step_engine_of_busy hn hb] at h
    obtain ⟨hbusy, hdone⟩ := engineStep_completes h
    have hirq : t.irq = s.irqEn := by
      rw [State.irq, hdone, Bool.true_or, Bool.and_true, engineStep_frame h]
    have hfault := engineStep_faultFields h
    exact ⟨hbusy, hdone, hirq, hfault⟩
  · intro s hn hb
    rw [step_engine hn]
    exact engineTurn_of_idle hb

/-- Settles O28: the frame of a command, and the frame of the engine step around it. -/
theorem commandsWriteNoOperand : Obligations.CommandsWriteNoOperand := by
  unfold Obligations.CommandsWriteNoOperand
  refine ⟨fun i s t h => exec_frame h, fun s t hn hb h => ?_⟩
  rw [step_engine_of_busy hn hb] at h
  exact engineStep_frame h

/-- Settles O35, which is the meaning of NOP (R114). -/
theorem nopResult : Obligations.NopResult := by
  unfold Obligations.NopResult
  exact fun _ => rfl

/-! ### Accept, held and excepted accesses (R110, R115) -/

/-- Settles O5: a write of `CMD` completes while `BUSY` = 0, and is an accept. -/
theorem cmdWriteAccepts : Obligations.CmdWriteAccepts := by
  unfold Obligations.CmdWriteAccepts
  intro s rest w h hb
  exact step_regWrite (r := .cmd) h (.inl hb)

/-- While `BUSY` = 1 the host's turn only marks an access that must wait. -/
theorem hostTurn_of_holdable {s : State} {a : Access} {rest : List Access} (hb : s.status.busy = true)
    (hq : s.hostQueue = a :: rest) (ha : holdable a = true) :
    hostTurn s = .next { s with held := true } := by
  simp [hostTurn, hq, hb, ha]

/-- Settles O9: the offset is that of a register that R115 does not except. -/
theorem busyHoldsAccess : Obligations.BusyHoldsAccess := by
  unfold Obligations.BusyHoldsAccess
  intro s off k rest h hb h4 hlt hid hstatus hsize
  obtain ⟨r, hr⟩ := regAt_isSome h4 hlt
  obtain rfl := regOffset_of_regAt hr
  have hnever : neverHeld r = false := by
    cases r with
    | id => exact absurd rfl hid
    | status => exact absurd rfl hstatus
    | memSize => exact absurd rfl hsize
    | _ => rfl
  rw [step_host h.1]
  exact hostTurn_of_holdable hb h.2 (by rw [holdable_regOffset, hnever, Bool.not_false])

/-- Settles O10: R115 excepts the three registers, whose reads answer their values; `ID` and `MEMSIZE`
ignore writes (10_state.md R48). -/
theorem exceptedAccessesComplete : Obligations.ExceptedAccessesComplete := by
  unfold Obligations.ExceptedAccessesComplete
  intro s rest
  refine ⟨fun h => ?_, fun h => ?_, fun h => ?_, fun v h => ?_, fun v h => ?_⟩
  · exact step_regRead (r := .id) h (.inr rfl) rfl
  · rw [← Status.toWord_eq]
    exact step_regRead (r := .status) h (.inr rfl) rfl
  · exact step_regRead (r := .memSize) h (.inr rfl) rfl
  · exact step_regWrite (r := .id) h (.inr rfl)
  · exact step_regWrite (r := .memSize) h (.inr rfl)

/-! ### Every command completes (R112) -/

/-- An access that R115 excepts, or that ends in a bus error, completes and writes neither `BUSY` nor the
schedule. -/
theorem hostAccess_of_not_holdable {a : Access} (s : State) (ha : holdable a = false) :
    ∃ t, hostAccess a s = .next t ∧ t.status.busy = s.status.busy ∧ t.schedule = s.schedule := by
  cases hr : accessTarget a with
  | none => exact ⟨s.respond .busError, by simp only [hostAccess, hr], rfl, rfl⟩
  | some r =>
    obtain ⟨off, width, kind⟩ := a
    obtain ⟨rfl, rfl⟩ : off = regOffset r ∧ width = 32 := by simpa using accessTarget_eq_some hr
    rw [hostAccess_reg]
    rw [holdable_regOffset] at ha
    cases r with
    | id | memSize => cases kind <;> exact ⟨_, rfl, rfl, rfl⟩
    | status =>
      cases kind with
      | read => exact ⟨_, rfl, rfl, rfl⟩
      | write v => exact ⟨_, rfl, Status.hostWrite_busy _ v, rfl⟩
    | _ => cases ha

/-- The host's turn while `BUSY` = 1 reaches a next state, in which the command still runs. -/
theorem hostTurn_of_busy {s : State} (hb : s.status.busy = true) :
    ∃ t, hostTurn s = .next t ∧ t.status.busy = true ∧ t.schedule = s.schedule := by
  cases hq : s.hostQueue with
  | nil => exact ⟨s, hostTurn_nil hq, hb, rfl⟩
  | cons a rest =>
    cases ha : holdable a with
    | true => exact ⟨_, hostTurn_of_holdable hb hq ha, hb, rfl⟩
    | false =>
      obtain ⟨t, ht, hbusy, hsched⟩ :=
        hostAccess_of_not_holdable { s with hostQueue := rest, held := false } ha
      exact ⟨t, by simp [hostTurn, hq, ha, ht], hbusy.trans hb, hsched⟩

/-- The engine step reaches a next state or stops at a byte that has no value. -/
theorem engineStep_ends (s : State) :
    (∃ t, engineStep s = .next t) ∨ engineStep s = .fault .unwrittenByte := by
  cases hd : decode s.op.word with
  | error e => exact .inl ⟨_, engineStep_of_error hd⟩
  | ok i =>
    rw [engineStep_of_ok hd]
    by_cases h : ∃ t, exec i s = .next t
    · obtain ⟨t, ht⟩ := h
      exact .inl ⟨t.complete, by rw [ht, onNext_next]⟩
    · rw [exec_stops fun t ht => h ⟨t, ht⟩]
      exact .inr rfl

/-- The command has completed after `k` steps, or the model has stopped at a byte that has no value. -/
def State.CompletesIn (s : State) (k : Nat) : Prop :=
  (∃ t, steps k s = .next t ∧ t.status.busy = false ∧ t.status.done = true) ∨
    steps k s = .fault .unwrittenByte

theorem steps_succ_of_next {s t : State} (h : step s = .next t) (k : Nat) :
    steps (k + 1) s = steps k t := by
  simp only [steps, h]

theorem steps_succ_of_fault {s : State} {r : Fault} (h : step s = .fault r) (k : Nat) :
    steps (k + 1) s = .fault r := by
  simp only [steps, h]

/-- The engine's turn completes the latched command. -/
theorem completesIn_one_of_engine {s : State} (hn : (nextTurn s).1 = .engine)
    (hb : s.status.busy = true) : s.CompletesIn 1 := by
  have hstep := step_engine_of_busy hn hb
  rcases engineStep_ends { s with schedule := (nextTurn s).2 } with ⟨t, ht⟩ | hstop
  · exact .inl ⟨t, steps_succ_of_next (hstep.trans ht) 0, engineStep_completes ht⟩
  · exact .inr (steps_succ_of_fault (hstep.trans hstop) 0)

/-- The turns before the engine's are the host's, and leave the command latched. -/
theorem exists_completesIn {l : List Turn} {s : State} (hl : s.schedule = l)
    (hb : s.status.busy = true) (hr : .hwReset ∉ l) : ∃ k, k ≤ l.length + 1 ∧ s.CompletesIn k := by
  induction l generalizing s with
  | nil => exact ⟨1, Nat.le_refl 1, completesIn_one_of_engine (by simp [nextTurn, hl, hb]) hb⟩
  | cons turn rest ih =>
    have hn : nextTurn s = (turn, rest) := by simp [nextTurn, hl]
    rw [List.mem_cons, not_or] at hr
    cases turn with
    | hwReset => exact absurd rfl hr.1
    | engine => exact ⟨1, Nat.le_add_left _ _, completesIn_one_of_engine (by rw [hn]) hb⟩
    | host =>
      obtain ⟨t, ht, htb, hts⟩ := hostTurn_of_busy (s := { s with schedule := (nextTurn s).2 }) hb
      obtain ⟨k, hk, hdone⟩ := ih (s := t) (hts.trans (by rw [hn])) htb hr.2
      have hsteps := steps_succ_of_next ((step_host (by rw [hn])).trans ht) k
      refine ⟨k + 1, Nat.succ_le_succ hk, ?_⟩
      rw [State.CompletesIn, hsteps]
      exact hdone

/-- Settles O8, by induction on the schedule. -/
theorem everyCommandCompletes : Obligations.EveryCommandCompletes := by
  unfold Obligations.EveryCommandCompletes
  exact fun s hb hr => exists_completesIn rfl hb hr

/-! ### A running command uses the latched operands (R110) -/

/-- The checks read the latch and `MEMSIZE` only, and a recorded fault writes `STATUS` only. -/
theorem withChecks_setOperands {i : Instr} {s : State} {a b c d e f : Word} {r r' : Result}
    (h : r' = onNext (State.setOperands a b c d e f) r) :
    withChecks i (s.setOperands a b c d e f) r' =
      onNext (State.setOperands a b c d e f) (withChecks i s r) := by
  cases hf : firstFault i s.op s.memSize.toNat with
  | none => rw [withChecks_of_none hf, withChecks_of_none (s := s.setOperands a b c d e f) hf, h]
  | some code =>
    rw [withChecks_of_some hf, withChecks_of_some (s := s.setOperands a b c d e f) hf]
    rfl

/-- A change of state passes a read of LMEM that does not depend on it. -/
theorem withBytes_onNext {g : State → State} {o : Option (List Byte)} {k k' : List Byte → Result}
    (h : ∀ l, k' l = onNext g (k l)) : withBytes o k' = onNext g (withBytes o k) := by
  cases o with
  | none => rfl
  | some l => exact h l

/-- A change of state passes a test that does not depend on it. -/
theorem ite_onNext {g : State → State} {p : Prop} [Decidable p] {r r' u u' : Result}
    (hr : r' = onNext g r) (hu : u' = onNext g u) :
    (if p then r' else u') = onNext g (if p then r else u) := by
  split
  · exact hr
  · exact hu

/-- No command sees or changes an operand register: what it reads is the latch, `MEMSIZE`, LMEM,
`CRC_STATE` and `STATUS`. -/
theorem exec_setOperands (i : Instr) (s : State) (a b c d e f : Word) :
    exec i (s.setOperands a b c d e f) = onNext (State.setOperands a b c d e f) (exec i s) := by
  cases i with
  | nop | crcInit | crcByte | quant | dequant => rfl
  | crcUpdate | pack | canvas | unpack | upscale2x | downscale2x | frameBuild =>
    exact withChecks_setOperands (withBytes_onNext fun _ => rfl)
  | frameCheck =>
    exact withChecks_setOperands (ite_onNext rfl (withBytes_onNext fun hdr =>
      ite_onNext rfl (withBytes_onNext fun _ => rfl)))

/-- Settles O11, by `exec_setOperands`. -/
theorem commandsUseLatchedOperands : Obligations.CommandsUseLatchedOperands := by
  unfold Obligations.CommandsUseLatchedOperands
  exact exec_setOperands

/-! ### The bytes the commands of the pipelines store, by the bytes they read -/

/-- PACK (44_pixel_pack.md R191). -/
theorem byteAt_packBytes_bytesOf {n k : Nat} (f : Nat → Byte) (hk : k < 12 * ceilDiv n 3) :
    byteAt (packBytes (bytesOf n f)) k = packedChannel n f k := by
  rw [byteAt_packBytes _ (by rwa [bytesOf_length]), byteAt_bytesOf, q_sym_eq_packedChannel]

/-- CANVAS (44_pixel_pack.md R195). -/
theorem byteAt_canvasBytes_bytesOf {p k : Nat} (f : Nat → Byte) (hk : k < 3 * csqrt p * csqrt p) :
    byteAt (canvasBytes p (bytesOf (3 * p) f)) k = if k < 3 * p then f k else Config.white := by
  rw [byteAt_canvasBytes _ _ hk]
  split
  · rw [byteAt_bytesOf, padded, if_pos ‹_›]
  · rfl

/-- UPSCALE2X (45_resampler.md R220). -/
theorem byteAt_upscaleBytes_bytesOf {w h x y ch : Nat} (f : Nat → Byte) (hx : x < 2 * w)
    (hy : y < 2 * h) (hch : ch < 3) :
    byteAt (upscaleBytes w h (bytesOf (3 * w * h) f)) (3 * (y * (2 * w) + x) + ch)
      = f (3 * (y / 2 * w + x / 2) + ch) := by
  rw [byteAt_upscaleBytes _ hx hy hch, byteAt_bytesOf, padded,
    if_pos (pixel_offset_lt (by omega) (by omega) hch)]

/-- UNPACK (44_pixel_pack.md R196). -/
theorem byteAt_unpackBytes_bytesOf {n i : Nat} (f : Nat → Byte) (hi : i < 3 * ceilDiv n 4) :
    byteAt (unpackBytes n (bytesOf (3 * n) f)) i = unpackedByte n f i := by
  rw [byteAt_unpackBytes _ _ hi]
  exact unpackedByte_congr (fun k hk => by rw [byteAt_bytesOf, padded, if_pos hk]) i

/-! ### UNPACK undoes PACK (44_pixel_pack.md R197) -/

/-- The level of a packed channel is the slice it carries (43_quantizer.md R175). -/
theorem levelOf_packedChannel (n : Nat) (f : Nat → Byte) (k : Nat) :
    levelOf (packedChannel n f k) =
      sliceDigit (padded n f (3 * (k / 12) + k % 12 / 4)) (k % 4) := by
  rw [← q_sym_eq_packedChannel, sym_eq_sliceDigit _ (Nat.mod_lt _ (by decide)), ← dq_eq_levelOf,
    dq_q (sliceDigit_lt _ _)]

/-- A byte is its four slices (43_quantizer.md R170). -/
theorem ofNat_sliceDigits (b : Byte) :
    BitVec.ofNat 8 (64 * sliceDigit b 0 + 16 * sliceDigit b 1 + 4 * sliceDigit b 2 + sliceDigit b 3)
      = b := by
  apply BitVec.eq_of_toNat_eq
  have := b.isLt
  simp only [sliceDigit, BitVec.toNat_ofNat]
  omega

/-- UNPACK of an array that begins with a packed frame begins with the frame and its zero pad. -/
theorem unpackedByte_of_packed {n p : Nat} {f g : Nat → Byte} (hp : 4 * ceilDiv n 3 ≤ p)
    (hg : ∀ k, k < 12 * ceilDiv n 3 → g k = packedChannel n f k) {i : Nat} (hi : i < 3 * ceilDiv n 3) :
    unpackedByte p g i = padded n f i := by
  have hlevel : ∀ j, j < 4 → levelOf (padded (3 * p) g (4 * i + j)) = sliceDigit (padded n f i) j := by
    intro j hj
    rw [padded, if_pos (by omega), hg _ (by omega), levelOf_packedChannel,
      show 3 * ((4 * i + j) / 12) + (4 * i + j) % 12 / 4 = i by omega,
      show (4 * i + j) % 4 = j by omega]
  have h0 := hlevel 0 (by decide)
  rw [Nat.add_zero] at h0
  simp only [unpackedByte, h0, hlevel 1 (by decide), hlevel 2 (by decide), hlevel 3 (by decide)]
  exact ofNat_sliceDigits _

/-! ### DOWNSCALE2X undoes UPSCALE2X (45_resampler.md R224) -/

/-- The mean of four equal samples. -/
theorem boxMean_self (b : Byte) : boxMean b b b b = b := by
  apply BitVec.eq_of_toNat_eq
  have := b.isLt
  simp only [boxMean, toByte, BitVec.toNat_ofNat]
  omega

/-- Number `k` of the channels of a `w` by `h` image is a channel of one of its pixels. -/
theorem channel_index {k w h : Nat} (hk : k < 3 * w * h) :
    k / 3 % w < w ∧ k / 3 / w < h ∧ k % 3 < 3 ∧ 3 * (k / 3 / w * w + k / 3 % w) + k % 3 = k := by
  have hpix : k / 3 < w * h := by
    rw [Nat.mul_assoc] at hk
    omega
  have hw : 0 < w := Nat.pos_of_mul_pos_right (Nat.zero_lt_of_lt hpix)
  exact ⟨Nat.mod_lt _ hw, Nat.div_lt_of_lt_mul hpix, Nat.mod_lt _ (by decide),
    by rw [Nat.div_add_mod', Nat.div_add_mod]⟩

/-- The mean of one block whose four samples are known (45_resampler.md R222). -/
theorem blockMean_of_image {m : Memory} {a w h x y ch : Nat} {I : Nat → Nat → Nat → Byte}
    (hm : ∀ x y ch, x < 2 * (w / 2) → y < 2 * (h / 2) → ch < 3 →
      m.read (a + 3 * (y * w + x) + ch) = some (I x y ch))
    (hx : x < w / 2) (hy : y < h / 2) (hch : ch < 3) :
    blockMean m a w x y ch = some (boxMean (I (2 * x) (2 * y) ch) (I (2 * x + 1) (2 * y) ch)
      (I (2 * x) (2 * y + 1) ch) (I (2 * x + 1) (2 * y + 1) ch)) := by
  have h₀₀ := hm (2 * x) (2 * y) ch (by omega) (by omega) hch
  have h₁₀ := hm (2 * x + 1) (2 * y) ch (by omega) (by omega) hch
  have h₀₁ := hm (2 * x) (2 * y + 1) ch (by omega) (by omega) hch
  have h₁₁ := hm (2 * x + 1) (2 * y + 1) ch (by omega) (by omega) hch
  simp only [blockMean, pixAddr, h₀₀, h₁₀, h₀₁, h₁₁]

/-- DOWNSCALE2X reads an upscaled image as the image it was made of: each block is one pixel. -/
theorem downscaleRead_of_upscaled {m : Memory} {a w h : Nat} {f : Nat → Byte}
    (hm : m.Holds a (12 * w * h) (byteAt (upscaleBytes w h (bytesOf (3 * w * h) f)))) :
    downscaleRead m a (2 * w) (2 * h) = some (bytesOf (3 * w * h) f) := by
  have himage : ∀ x y ch, x < 2 * (2 * w / 2) → y < 2 * (2 * h / 2) → ch < 3 →
      m.read (a + 3 * (y * (2 * w) + x) + ch) = some (f (3 * (y / 2 * w + x / 2) + ch)) := by
    intro x y ch hx hy hch
    rw [Nat.mul_div_cancel_left _ (by decide)] at hx hy
    have hlt : 3 * (y * (2 * w) + x) + ch < 12 * w * h := by
      have := pixel_offset_lt hx hy hch
      rwa [show 3 * (2 * w) * (2 * h) = 12 * w * h by ring] at this
    rw [Nat.add_assoc, hm _ hlt, byteAt_upscaleBytes_bytesOf f hx hy hch]
  rw [downscaleRead, Nat.mul_div_cancel_left w (by decide), Nat.mul_div_cancel_left h (by decide)]
  refine readAll_of_forall fun k hk => ?_
  obtain ⟨hx, hy, hch, hindex⟩ := channel_index (List.mem_range.1 hk)
  rw [blockMean_of_image himage (by omega) (by omega) hch]
  simp only [Nat.mul_div_cancel_left _ (show 0 < 2 by decide),
    show ∀ z, (2 * z + 1) / 2 = z by omega, boxMean_self, hindex]

/-! ### FRAME_CHECK of a built frame (42_frame.md R154) -/

/-- Where LMEM holds a sequence, a read of a part of it answers that part. -/
theorem Memory.readBytes_part {m : Memory} {a n k c : Nat} {l pre part post : List Byte}
    (hm : m.Holds a n (byteAt l)) (hl : l = pre ++ (part ++ post)) (hk : pre.length = k)
    (hc : part.length = c) (hn : k + c ≤ n) : m.readBytes (a + k) c = some part := by
  subst hk hc
  rw [Memory.readBytes_of_holds (f := byteAt part), bytesOf_byteAt]
  intro i hi
  rw [Nat.add_assoc, hm _ (by omega), hl, byteAt_append, if_neg (by omega), Nat.add_sub_cancel_left,
    byteAt_append, if_pos hi]

theorem toWord_toNat {n : Nat} (h : n < 2 ^ 32) : (toWord n).toNat = n := by
  rw [toWord, BitVec.toNat_ofNat, Nat.mod_eq_of_lt h]

/-- The length field of a payload length below 2^24 (42_frame.md R151). -/
theorem declaredLen_header (c : Word) {n : Nat} (hn : n < 2 ^ 24) :
    declaredLen (le32 c ++ le32 (toWord n)) = n := by
  have hfield : fromLe32 (le32 (toWord n)) = n := by
    rw [← List.append_nil (le32 _), fromLe32_le32_append, toWord_toNat (by omega)]
  rw [declaredLen, List.drop_left' (le32_length c), hfield, Config.lenMask,
    show 0x00FFFFFF = 2 ^ 24 - 1 by rfl, Nat.and_two_pow_sub_one_eq_mod, Nat.mod_eq_of_lt hn]

/-- The effects of FRAME_CHECK on a frame: the checksum it stores matches. -/
theorem checkFrame_of_frame {s : State} {p : List Byte}
    (hm : s.lmem.Holds s.op.srcAddr (p.length + 8) (byteAt (frameBytes p))) :
    checkFrame s (le32 (frameCrc p ^^^ Config.crcXorOut) ++ le32 (toWord p.length)) p.length =
      .next (((s.setCrc (frameCrc p)).setStatus (s.status.setInteg true)).setResult p.length) := by
  have hbody : s.lmem.readBytes (s.op.srcAddr + 4) (4 + p.length) =
      some (le32 (toWord p.length) ++ p) :=
    Memory.readBytes_part (post := []) hm (by rw [frameBytes, List.append_nil, List.append_assoc])
      (le32_length _) (by rw [List.length_append, le32_length]) (by omega)
  rw [checkFrame, hbody, withBytes_some, ← frameCrc]
  dsimp only
  rw [fromLe32_le32_append, beq_self_eq_true]

/-- FRAME_CHECK of a frame, with anything after it, finds the payload's length and a matching
checksum. -/
theorem exec_frameCheck_of_frame {s : State} {p : List Byte} (hp : p.length < 2 ^ 24)
    (hin : InLmem s.memSize.toNat s.op.srcAddr s.op.count) (hlen : p.length + 8 ≤ s.op.count)
    (hm : s.lmem.Holds s.op.srcAddr (p.length + 8) (byteAt (frameBytes p))) :
    exec .frameCheck s = .next (((s.setCrc (frameCrc p)).setStatus
      (s.status.setInteg true)).setResult p.length) := by
  have hheader : s.lmem.readBytes s.op.srcAddr Config.headerBytes =
      some (le32 (frameCrc p ^^^ Config.crcXorOut) ++ le32 (toWord p.length)) :=
    Memory.readBytes_part (pre := []) (k := 0) (post := p) hm rfl rfl rfl
      (by rw [Config.headerBytes]; omega)
  rw [exec, execFrameCheck, withChecks_of_none (firstFault_of_source rfl rfl hin),
    if_neg (by rw [Config.headerBytes]; omega), hheader, withBytes_some]
  dsimp only
  rw [declaredLen_header _ hp, if_neg (by rw [Config.headerBytes]; omega), checkFrame_of_frame hm]

/-- The payload in a frame. -/
theorem byteAt_frameBytes_payload {n i : Nat} (f : Nat → Byte) (hi : i < n) :
    byteAt (frameBytes (bytesOf n f)) (8 + i) = f i := by
  rw [frameBytes, byteAt_append, List.length_append, le32_length, le32_length, if_neg (by omega),
    Nat.add_sub_cancel_left, byteAt_bytesOf, padded, if_pos hi]

/-! ### The stages of the pipelines (R117) -/

/-- A stage that begins: LMEM has `size` bytes, `STATUS` is `st`, and the latch holds these operands. -/
structure Ready (s : State) (size : Nat) (st : Status) (src dst len width height : Nat) : Prop where
  size : s.memSize.toNat = size
  status : s.status = st
  src : s.op.srcAddr = src
  dst : s.op.dstAddr = dst
  len : s.op.count = len
  width : s.op.w = width
  height : s.op.h = height

/-- A stage that has ended: the size and `STATUS` are `size` and `st`, `RESULT` is `res`, and the stage's
buffer, the `n` bytes from address `b` on, holds `f`. -/
structure Stage (t : State) (size : Nat) (st : Status) (res b n : Nat) (f : Nat → Byte) : Prop where
  size : t.memSize.toNat = size
  status : t.status = st
  result : t.result.toNat = res
  holds : t.lmem.Holds b n f

/-- Operands below 2^32 fit their registers. -/
theorem withLatch_ready {s : State} {size : Nat} {st : Status} (hsize : s.memSize.toNat = size)
    (hst : s.status = st) {a b n w h : Nat} (ha : a < 2 ^ 32 := by omega)
    (hb : b < 2 ^ 32 := by omega) (hn : n < 2 ^ 32 := by omega) (hw : w < 2 ^ 32 := by omega)
    (hh : h < 2 ^ 32 := by omega) : Ready (s.withLatch a b n w h) size st a b n w h :=
  ⟨hsize, hst, toWord_toNat ha, toWord_toNat hb, toWord_toNat hn, toWord_toNat hw, toWord_toNat hh⟩

/-- A destination range in LMEM and after the source range: no check fails. -/
theorem firstFault_of_after {i : Instr} {op : Latch} {size : Nat} {q r : Range}
    (hl : i = .frameBuild → op.count < Config.lenCeiling) (hq : srcRange i op = some q)
    (hr : dstRange i op = some r) (hafter : q.base + q.size ≤ r.base)
    (hin : r.base + r.size ≤ size) : firstFault i op size = none :=
  firstFault_of_ranges hl hq hr (.inr (by omega)) (.inr hin) (by unfold Overlap; omega)

/-- A command whose checks pass, and which reads `bs`, answers by what it does with `bs`. -/
theorem withChecks_withBytes {i : Instr} {s : State} {o : Option (List Byte)} {bs : List Byte}
    {k : List Byte → Result} (hf : firstFault i s.op s.memSize.toNat = none) (ho : o = some bs) :
    withChecks i s (withBytes o k) = k bs := by
  rw [withChecks_of_none hf, ho, withBytes_some]

/-- A command that stores `bs` from address `b` on ends a stage. -/
theorem stage_of_store {s t : State} {res b n : Nat} {bs : List Byte} {f : Nat → Byte}
    (hmem : t.lmem = s.lmem.writeBytes b bs) (hlen : bs.length = n)
    (hbytes : ∀ k, k < n → byteAt bs k = f k) (hres : res < 2 ^ 32)
    (ht : t = { s with result := toWord res, crcState := t.crcState, lmem := t.lmem }) :
    Stage t s.memSize.toNat s.status res b n f where
  size := by rw [ht]
  status := by rw [ht]
  result := by rw [ht, toWord_toNat hres]
  holds := hmem ▸ Memory.holds_writeBytes hlen hbytes

section stages
variable {s : State} {size : Nat} {st : Status} {a b n w h : Nat} {f : Nat → Byte}

theorem frameBuild_stage (hs : Ready s size st a b n 0 0) (hn : n < 2 ^ 24) (hm : s.lmem.Holds a n f)
    (hafter : a + n ≤ b) (hin : b + (n + 8) ≤ size) :
    ∃ t, exec .frameBuild s = .next t ∧
      Stage t size st (n + 8) b (n + 8) (byteAt (frameBytes (bytesOf n f))) := by
  obtain ⟨rfl, rfl, rfl, rfl, rfl, -, -⟩ := hs
  have hf := firstFault_of_after (i := .frameBuild) (fun _ => hn) rfl rfl hafter hin
  exact ⟨_, withChecks_withBytes hf (Memory.readBytes_of_holds hm),
    stage_of_store rfl (by simp) (fun _ _ => rfl) (by omega) rfl⟩

theorem pack_stage (hs : Ready s size st a b n 0 0) (hm : s.lmem.Holds a n f) (hafter : a + n ≤ b)
    (hin : b + 12 * ceilDiv n 3 ≤ size) :
    ∃ t, exec .pack s = .next t ∧
      Stage t size st (4 * ceilDiv n 3) b (12 * ceilDiv n 3) (packedChannel n f) := by
  obtain ⟨rfl, rfl, rfl, rfl, rfl, -, -⟩ := hs
  have hf := firstFault_of_after (i := .pack) nofun rfl rfl hafter hin
  have hsize := s.memSize.isLt
  exact ⟨_, withChecks_withBytes hf (Memory.readBytes_of_holds hm),
    stage_of_store rfl (by simp) (fun _ => byteAt_packBytes_bytesOf f) (by omega) rfl⟩

theorem canvas_stage {side : Nat} (hs : Ready s size st a b n 0 0) (hside : IsCsqrt n side)
    (hm : s.lmem.Holds a (3 * n) f) (hafter : a + 3 * n ≤ b) (hin : b + 3 * side * side ≤ size) :
    ∃ t, exec .canvas s = .next t ∧
      Stage t size st side b (3 * side * side) (fun k => if k < 3 * n then f k else Config.white) := by
  obtain ⟨rfl, rfl, rfl, rfl, rfl, -, -⟩ := hs
  obtain rfl := hside.eq_csqrt
  have hf := firstFault_of_after (i := .canvas) nofun rfl rfl hafter hin
  have hsize := s.memSize.isLt
  have hself := Nat.le_mul_self (csqrt s.op.count)
  rw [Nat.mul_assoc] at hin
  exact ⟨_, withChecks_withBytes hf (Memory.readBytes_of_holds hm),
    stage_of_store rfl (by simp) (fun _ => byteAt_canvasBytes_bytesOf f) (by omega) rfl⟩

theorem upscale2x_stage (hs : Ready s size st a b 0 w h) (hw : 2 * w < 2 ^ 32)
    (hm : s.lmem.Holds a (3 * w * h) f) (hafter : a + 3 * w * h ≤ b) (hin : b + 12 * w * h ≤ size) :
    ∃ t, exec .upscale2x s = .next t ∧ Stage t size st (2 * w) b (12 * w * h)
      (byteAt (upscaleBytes w h (bytesOf (3 * w * h) f))) := by
  obtain ⟨rfl, rfl, rfl, rfl, -, rfl, rfl⟩ := hs
  have hf := firstFault_of_after (i := .upscale2x) nofun rfl rfl hafter hin
  exact ⟨_, withChecks_withBytes hf (Memory.readBytes_of_holds hm),
    stage_of_store rfl (by simp) (fun _ _ => rfl) hw rfl⟩

theorem downscale2x_stage (hs : Ready s size st a b 0 (2 * w) (2 * h))
    (hm : s.lmem.Holds a (12 * w * h) (byteAt (upscaleBytes w h (bytesOf (3 * w * h) f))))
    (hafter : a + 12 * w * h ≤ b) (hin : b + 3 * w * h ≤ size) :
    ∃ t, exec .downscale2x s = .next t ∧ Stage t size st w b (3 * w * h) f := by
  obtain ⟨rfl, rfl, rfl, rfl, -, hsw, hsh⟩ := hs
  have hq : srcRange .downscale2x s.op = some ⟨s.op.srcAddr, 12 * w * h⟩ := by
    rw [srcRange, hsw, hsh, show 3 * (2 * w) * (2 * h) = 12 * w * h by ring]
  have hr : dstRange .downscale2x s.op = some ⟨s.op.dstAddr, 3 * w * h⟩ := by
    rw [dstRange, hsw, hsh, Nat.mul_div_cancel_left w (by decide),
      Nat.mul_div_cancel_left h (by decide)]
  have hread : downscaleRead s.lmem s.op.srcAddr s.op.w s.op.h = some (bytesOf (3 * w * h) f) := by
    rw [hsw, hsh, downscaleRead_of_upscaled hm]
  have hwidth : s.op.w / 2 = w := by omega
  have hlt : s.op.w < 2 ^ 32 := s.op.width.isLt
  have hf := firstFault_of_after (i := .downscale2x) nofun hq hr hafter hin
  refine ⟨_, withChecks_withBytes hf hread, ?_⟩
  rw [hwidth]
  exact stage_of_store rfl (by simp) (fun _ hk => by rw [byteAt_bytesOf, padded, if_pos hk])
    (by omega) rfl

theorem unpack_stage (hs : Ready s size st a b n 0 0) (hm : s.lmem.Holds a (3 * n) f)
    (hafter : a + 3 * n ≤ b) (hin : b + 3 * ceilDiv n 4 ≤ size) :
    ∃ t, exec .unpack s = .next t ∧
      Stage t size st (3 * ceilDiv n 4) b (3 * ceilDiv n 4) (unpackedByte n f) := by
  obtain ⟨rfl, rfl, rfl, rfl, rfl, -, -⟩ := hs
  have hf := firstFault_of_after (i := .unpack) nofun rfl rfl hafter hin
  have hsize := s.memSize.isLt
  exact ⟨_, withChecks_withBytes hf (Memory.readBytes_of_holds hm),
    stage_of_store rfl (by simp) (fun _ => byteAt_unpackBytes_bytesOf f) (by omega) rfl⟩

/-- FRAME_CHECK of a buffer of `c` bytes that begins with a frame ends the decode pipeline. -/
theorem frameCheck_stage {c : Nat} (hs : Ready s size st a b c 0 0) (hn : n < 2 ^ 24)
    (hm : s.lmem.Holds a (n + 8) (byteAt (frameBytes (bytesOf n f)))) (hc : n + 8 ≤ c)
    (hin : a + c ≤ size) :
    ∃ t, exec .frameCheck s = .next t ∧ Stage t size { st with integOk := true } n (a + 8) n f := by
  obtain ⟨rfl, rfl, rfl, rfl, rfl, -, -⟩ := hs
  have hl : (bytesOf n f).length = n := bytesOf_length n f
  have hexec := exec_frameCheck_of_frame (s := s) (p := bytesOf n f) (by omega) (.inr hin) (by omega)
    (by rwa [hl])
  rw [hl] at hexec
  refine ⟨_, hexec, rfl, rfl, toWord_toNat (by omega), fun i hi => ?_⟩
  rw [← byteAt_frameBytes_payload f hi, Nat.add_assoc]
  exact hm (8 + i) (by omega)

end stages

/-- UNPACK of the canvas of a packed frame begins with the frame (44_pixel_pack.md R198). -/
theorem unpackedByte_canvas {n p i : Nat} {f : Nat → Byte} (hp : 4 * ceilDiv n 3 ≤ p) (hi : i < n) :
    unpackedByte p (fun k => if k < 3 * (4 * ceilDiv n 3) then packedChannel n f k else Config.white) i
      = f i := by
  have hpad : n ≤ 3 * ceilDiv n 3 := by
    unfold ceilDiv
    omega
  rw [unpackedByte_of_packed (f := f) hp (fun k hk => if_pos (by omega)) (by omega), padded, if_pos hi]

/-- Settles O57, stage by stage: what each stage of the decode pipeline reads is what its counterpart in
the encode pipeline was given. -/
theorem codecRoundTrip : Obligations.CodecRoundTrip := by
  unfold Obligations.CodecRoundTrip
  intro s f n side a₀ a₁ a₂ a₃ a₄ a₅ a₆ G hn hside hm h₁ h₂ h₃ h₄ h₅ h₆ h₇
  change IsCsqrt (4 * ceilDiv (n + 8) 3) side at hside
  change a₂ + 12 * ceilDiv (n + 8) 3 ≤ a₃ at h₃
  change a₆ + 3 * ceilDiv (side * side) 4 ≤ _ at h₇
  have hsize := s.memSize.isLt
  have hself := Nat.le_mul_self side
  have h3 : 3 * side * side = 3 * (side * side) := Nat.mul_assoc ..
  have h12 : 12 * side * side = 12 * (side * side) := Nat.mul_assoc ..
  have hpixels := hside.1
  have hframe : n + 8 ≤ 3 * ceilDiv (side * side) 4 := by
    unfold ceilDiv at hpixels ⊢
    omega
  obtain ⟨t₁, e₁, k₁⟩ := frameBuild_stage (withLatch_ready rfl rfl) hn hm h₁ (by omega)
  obtain ⟨t₂, e₂, k₂⟩ := pack_stage (withLatch_ready k₁.size k₁.status) k₁.holds h₂ (by omega)
  obtain ⟨t₃, e₃, k₃⟩ := canvas_stage (b := a₃) (withLatch_ready k₂.size k₂.status) hside
    (fun i hi => k₂.holds i (by omega)) (by omega) (by omega)
  obtain ⟨t₄, e₄, k₄⟩ := upscale2x_stage (withLatch_ready k₃.size k₃.status) (by omega) k₃.holds h₄
    (by omega)
  obtain ⟨t₅, e₅, k₅⟩ := downscale2x_stage (withLatch_ready k₄.size k₄.status) k₄.holds h₅ (by omega)
  obtain ⟨t₆, e₆, k₆⟩ := unpack_stage (b := a₆) (n := side * side) (withLatch_ready k₅.size k₅.status)
    (fun i hi => k₅.holds i (by omega)) (by omega) h₇
  have hback : t₆.lmem.Holds a₆ (n + 8) (byteAt (frameBytes (bytesOf n f))) := fun i hi => by
    rw [k₆.holds i (by omega), unpackedByte_canvas hpixels hi]
  obtain ⟨t₇, e₇, k₇⟩ := frameCheck_stage (b := 0) (withLatch_ready k₆.size k₆.status) hn hback
    hframe h₇
  refine ⟨t₁, t₂, t₃, t₄, t₅, t₆, t₇, e₁, ?_, ?_, ?_, ?_, ?_, ?_, k₄.result, k₇.result, k₇.status,
    k₇.holds⟩
  · rw [k₁.result, e₂]
  · rw [k₂.result, e₃]
  · rw [k₃.result, e₄]
  · rw [k₄.result, e₅]
  · rw [k₅.result, e₆]
  · rw [k₆.result, e₇]

end Sys2Proof.Machine
end

section
/-! The statements of 41_crc.md: the CRC as a function (R130, R131) and its three commands (R132 to R134). -/

namespace Sys2Proof.Machine

/-! ### CRC_UPDATE (R133) -/

/-- CRC_UPDATE of a range in LMEM reads its bytes in increasing address order and folds them in. -/
theorem exec_crcUpdate_of_holds {s : State} {f : Nat → Byte}
    (hin : InLmem s.memSize.toNat s.op.srcAddr s.op.count) (hm : s.lmem.Holds s.op.srcAddr s.op.count f) :
    exec .crcUpdate s = .next (s.setCrc (crcUpdate s.crcState (bytesOf s.op.count f))) :=
  withChecks_withBytes (firstFault_of_source rfl rfl hin) (Memory.readBytes_of_holds hm)

/-- Settles O37: what `exec_crcUpdate_of_holds` says, with `crcUpdate` as the fold it is. -/
theorem crcUpdateResult : Obligations.CrcUpdateResult := by
  unfold Obligations.CrcUpdateResult
  exact fun s f hin hm => exec_crcUpdate_of_holds hin hm

/-! ### The CRC as a function (R131) -/

/-- A checksum may be computed in pieces. -/
theorem crcUpdate_append (c : Word) (a b : List Byte) :
    crcUpdate c (a ++ b) = crcUpdate (crcUpdate c a) b := List.foldl_append

/-- A change of one byte changes the CRC register there, and no later byte merges two registers. -/
theorem crcUpdate_ne_of_byte_ne (c : Word) (l m : List Byte) {x y : Byte} (h : x ≠ y) :
    crcUpdate c (l ++ x :: m) ≠ crcUpdate c (l ++ y :: m) := by
  have hstep : crcStep (crcUpdate c l) x ≠ crcStep (crcUpdate c l) y := (crcStep_right_injective _).ne h
  rw [crcUpdate_append, crcUpdate_append, crcUpdate_cons, crcUpdate_cons]
  exact (crcUpdate_left_injective m).ne hstep

/-- Two CRC-32 are equal exactly when the two CRC registers are. -/
theorem crc32_eq_iff {a b : List Byte} :
    crc32 a = crc32 b ↔ crcUpdate Config.crcInit a = crcUpdate Config.crcInit b :=
  BitVec.xor_left_inj _

/-- Settles O38: the check values are computed, and the other two parts hold for `crcUpdate` from every
register. -/
theorem crcProperties : Obligations.CrcProperties := by
  unfold Obligations.CrcProperties
  refine ⟨by decide, by decide +kernel, crcUpdate_append, by decide +kernel, by decide +kernel,
    fun l m x y hxy => ?_⟩
  rw [Ne, crc32_eq_iff]
  exact crcUpdate_ne_of_byte_ne Config.crcInit l m hxy

/-! ### CRC_INIT and CRC_BYTE (R132, R134) -/

/-- Settles O36: CRC_INIT is one update of State, which `CRC_RESULT` then reads as 0, and CRC_BYTE feeds
the low byte of `ARG`. -/
theorem crcInitAndByteResult : Obligations.CrcInitAndByteResult := by
  unfold Obligations.CrcInitAndByteResult
  refine fun s => ⟨⟨s.setCrc Config.crcInit, rfl, rfl, ?_⟩, ?_⟩
  · rw [State.crcResult, State.setCrc_crcState]
    decide
  · rw [exec, execCrcByte, Latch.argByte, lowByte_eq_ofNat]
    rfl

end Sys2Proof.Machine
end

section
/-! The statements of 42_frame.md: what FRAME_BUILD writes (R150, R152), what FRAME_CHECK finds (R151,
R153), and the two together, on a whole frame (R154) and on a changed one (R156). -/

namespace Sys2Proof.Machine

/-! ### The bytes of a frame (R150) -/

/-- A byte sequence is its first `a` bytes and the rest. -/
theorem bytesOf_add (a b : Nat) (f : Nat → Byte) :
    bytesOf (a + b) f = bytesOf a f ++ bytesOf b (fun i => f (a + i)) := by
  simp [bytesOf, List.range_add]

/-- A byte sequence around its byte `j`. -/
theorem bytesOf_around {n j : Nat} (hj : j < n) (f : Nat → Byte) :
    bytesOf n f = bytesOf j f ++ f j :: bytesOf (n - j - 1) (fun i => f (j + (1 + i))) := by
  obtain ⟨m, rfl⟩ : ∃ m, n = j + (1 + m) := ⟨n - j - 1, by omega⟩
  rw [bytesOf_add, bytesOf_add 1, show j + (1 + m) - j - 1 = m by omega]
  rfl

/-- A byte of a number is a byte of the word that keeps it (00_scope.md R10). -/
theorem extractLsb'_toWord (n : Nat) {k : Nat} (hk : k < 4) :
    (toWord n).extractLsb' (8 * k) 8 = BitVec.ofNat 8 (n / 2 ^ (8 * k)) := by
  apply BitVec.eq_of_toNat_eq
  simp only [toWord, BitVec.extractLsb'_toNat, BitVec.toNat_ofNat, Nat.shiftRight_eq_div_pow]
  interval_cases k <;> omega

/-- The bytes FRAME_BUILD stores are those R150 lists. -/
theorem byteAt_frameBytes {n k : Nat} (f : Nat → Byte) (hk : k < n + 8) :
    byteAt (frameBytes (bytesOf n f)) k = frameByte n f k := by
  rw [frameBytes, List.append_assoc, byteAt_append, byteAt_append, le32_length, le32_length, frameByte]
  split
  · rw [byteAt_le32 _ ‹_›, frameCrc, bytesOf_length]
    rfl
  · split
    · rw [if_pos (by omega), byteAt_le32 _ ‹_›, bytesOf_length, extractLsb'_toWord _ ‹_›]
    · rw [if_neg (by omega), byteAt_bytesOf, padded, if_pos (by omega), Nat.sub_sub]

theorem bytesOf_frameByte (n : Nat) (f : Nat → Byte) :
    bytesOf (n + 8) (frameByte n f) = frameBytes (bytesOf n f) := by
  have h := bytesOf_byteAt (frameBytes (bytesOf n f))
  rw [frameBytes_length, bytesOf_length] at h
  rw [← h]
  exact bytesOf_congr fun k hk => (byteAt_frameBytes f hk).symm

/-- The header of a frame: its checksum and its length field. -/
theorem bytesOf_frameByte_header (n : Nat) (f : Nat → Byte) :
    bytesOf Config.headerBytes (frameByte n f) =
      le32 (frameCrc (bytesOf n f) ^^^ Config.crcXorOut) ++ le32 (toWord n) := by
  have h := bytesOf_frameByte n f
  rw [Nat.add_comm, bytesOf_add, frameBytes, bytesOf_length] at h
  exact List.append_inj_left h rfl

/-- What the checksum of a frame covers: its length field and its payload. -/
theorem bytesOf_frameByte_body (n : Nat) (f : Nat → Byte) :
    bytesOf (4 + n) (fun i => frameByte n f (4 + i)) = le32 (toWord n) ++ bytesOf n f := by
  have h := bytesOf_frameByte n f
  rw [show n + 8 = 4 + (4 + n) by omega, bytesOf_add, frameBytes, bytesOf_length,
    List.append_assoc] at h
  exact List.append_inj_right h rfl

/-! ### FRAME_BUILD (R152) -/

/-- FRAME_BUILD within its bounds stores the frame of the bytes it reads. -/
theorem exec_frameBuild_of_holds {s : State} {f : Nat → Byte} (hn : s.op.count < 2 ^ 24)
    (hsrc : InLmem s.memSize.toNat s.op.srcAddr s.op.count)
    (hdst : InLmem s.memSize.toNat s.op.dstAddr (s.op.count + 8))
    (hapart : ¬ Overlap s.op.srcAddr s.op.count s.op.dstAddr (s.op.count + 8))
    (hm : s.lmem.Holds s.op.srcAddr s.op.count f) :
    exec .frameBuild s = .next (((s.store s.op.dstAddr (frameBytes (bytesOf s.op.count f))).setCrc
      (frameCrc (bytesOf s.op.count f))).setResult (s.op.count + 8)) :=
  withChecks_withBytes (firstFault_of_ranges (fun _ => hn) rfl rfl hsrc hdst hapart)
    (Memory.readBytes_of_holds hm)

/-- Settles O39: the answer is `exec_frameBuild_of_holds`, and the bytes stored are `frameByte`. -/
theorem frameBuildResult : Obligations.FrameBuildResult := by
  unfold Obligations.FrameBuildResult
  intro s f n src dst hn hsrc hdst hapart hm
  have hcrc : frameCrc (bytesOf n f) = crcUpdate 0xFFFFFFFF#32 (le32 s.op.len ++ bytesOf n f) := by
    rw [frameCrc, bytesOf_length, toWord, BitVec.ofNat_toNat, BitVec.setWidth_eq, Config.crcInit]
  have hl : (frameBytes (bytesOf n f)).length = n + 8 := by
    rw [frameBytes_length, bytesOf_length]
  refine ⟨_, exec_frameBuild_of_holds hn hsrc hdst hapart hm, ?_,
    Memory.holds_writeBytes hl fun _ => byteAt_frameBytes f, Memory.writeBytes_sameOutside _ _ _ hl⟩
  rw [← hcrc]
  rfl

/-! ### FRAME_CHECK (R151, R153) -/

/-- The declared length leaves byte 7 of the header out. -/
theorem declaredLen_bytesOf (h : Nat → Byte) :
    declaredLen (bytesOf Config.headerBytes h) = declared h := by
  change ((h 4).toNat + 2 ^ 8 * (h 5).toNat + 2 ^ 16 * (h 6).toNat + 2 ^ 24 * (h 7).toNat)
    &&& (2 ^ 24 - 1) = _
  have h4 := (h 4).isLt
  have h5 := (h 5).isLt
  have h6 := (h 6).isLt
  rw [Nat.and_two_pow_sub_one_eq_mod, declared]
  omega

/-- Whether the checksum stored in a buffer of declared length `d` is the checksum of its body. -/
def checksumMatches (d : Nat) (h : Nat → Byte) : Bool :=
  decide ((crcUpdate Config.crcInit (bytesOf (4 + d) fun i => h (4 + i)) ^^^ Config.crcXorOut).toNat
    = fromLe32 (bytesOf Config.headerBytes h))

/-- FRAME_CHECK of a well-formed buffer needs its header and its payload only. -/
theorem exec_frameCheck_of_holds {s : State} {h : Nat → Byte} {d : Nat} (hd : declared h = d)
    (hin : InLmem s.memSize.toNat s.op.srcAddr s.op.count) (hlen : d + 8 ≤ s.op.count)
    (hm : s.lmem.Holds s.op.srcAddr (8 + d) h) :
    exec .frameCheck s =
      .next (((s.setCrc (crcUpdate Config.crcInit (bytesOf (4 + d) fun i => h (4 + i)))).setStatus
        (s.status.setInteg (checksumMatches d h))).setResult d) := by
  have hheader : s.lmem.readBytes s.op.srcAddr Config.headerBytes =
      some (bytesOf Config.headerBytes h) :=
    Memory.readBytes_of_holds fun i hi => hm i (Nat.lt_add_right d hi)
  have hbody : s.lmem.readBytes (s.op.srcAddr + 4) (4 + d) =
      some (bytesOf (4 + d) fun i => h (4 + i)) :=
    Memory.readBytes_of_holds fun i hi => by rw [Nat.add_assoc, hm _ (by omega)]
  rw [exec, execFrameCheck, withChecks_of_none (firstFault_of_source rfl rfl hin),
    if_neg (by rw [Config.headerBytes]; omega), hheader, withBytes_some]
  dsimp only
  rw [declaredLen_bytesOf, hd, if_neg (by rw [Config.headerBytes]; omega), checkFrame, hbody,
    withBytes_some]
  rfl

/-- Settles O40: what `exec_frameCheck_of_holds` says, with the stored checksum written out. -/
theorem frameCheckResult : Obligations.FrameCheckResult := by
  unfold Obligations.FrameCheckResult
  intro s h L src d stored c hin hL hd hm
  exact exec_frameCheck_of_holds rfl hin (show d + 8 ≤ L by omega) hm

/-! ### FRAME_CHECK of what FRAME_BUILD wrote (R154) -/

/-- Settles O41: the buffer begins with the frame FRAME_BUILD stored, so FRAME_CHECK finds the payload's
length and its checksum. -/
theorem frameRoundTrip : Obligations.FrameRoundTrip := by
  unfold Obligations.FrameRoundTrip
  intro s t u f k n src dst buf hn hsrc hdst hapart hm hbuild hcopy hlen hin
  have hl : (bytesOf n f).length = n := bytesOf_length n f
  obtain rfl := Host.Outcome.next.inj
    ((exec_frameBuild_of_holds hn hsrc hdst hapart hm).symm.trans hbuild)
  have hframe : u.lmem.Holds buf (n + 8) (byteAt (frameBytes (bytesOf n f))) := fun i hi => by
    rw [hcopy i hi]
    exact Memory.read_writeBytes_in (by rwa [frameBytes_length, bytesOf_length])
  have hcheck := exec_frameCheck_of_frame (s := u) (p := bytesOf n f) (by rwa [hl])
    (show InLmem _ buf u.op.len.toNat by rwa [hlen])
    (show _ ≤ u.op.len.toNat by rw [hlen, hl]; exact Nat.le_add_right _ _) (by rwa [hl])
  rw [hl] at hcheck
  refine ⟨_, hcheck, rfl, fun i hi => ?_⟩
  rw [← byteAt_frameBytes_payload f hi, Nat.add_assoc]
  exact hframe (8 + i) (by omega)

/-! ### FRAME_CHECK of a changed frame (R156) -/

/-- The declared length of a frame is its payload's length. -/
theorem declared_frameByte {n : Nat} (hn : n < 2 ^ 24) (f : Nat → Byte) :
    declared (frameByte n f) = n := by
  rw [← declaredLen_bytesOf, bytesOf_frameByte_header, declaredLen_header _ hn]

/-- The checksum field is its four bytes: it differs wherever one of them does. -/
theorem fromLe32_bytesOf_eq_iff {g h : Nat → Byte} :
    fromLe32 (bytesOf Config.headerBytes g) = fromLe32 (bytesOf Config.headerBytes h) ↔
      ∀ i, i < 4 → g i = h i := by
  change (g 0).toNat + 2 ^ 8 * (g 1).toNat + 2 ^ 16 * (g 2).toNat + 2 ^ 24 * (g 3).toNat =
    (h 0).toNat + 2 ^ 8 * (h 1).toNat + 2 ^ 16 * (h 2).toNat + 2 ^ 24 * (h 3).toNat ↔ _
  constructor
  · intro heq i hi
    have hg := And.intro (g 0).isLt (And.intro (g 1).isLt (g 2).isLt)
    have hh := And.intro (h 0).isLt (And.intro (h 1).isLt (h 2).isLt)
    apply BitVec.eq_of_toNat_eq
    interval_cases i <;> omega
  · intro heq
    rw [heq 0 (by decide), heq 1 (by decide), heq 2 (by decide), heq 3 (by decide)]

/-- Two sequences that differ in one byte have different CRC registers (41_crc.md R131). -/
theorem crcUpdate_bytesOf_ne (c : Word) {m k : Nat} {g h : Nat → Byte} (hk : k < m) (hne : g k ≠ h k)
    (heq : ∀ i, i < m → i ≠ k → g i = h i) :
    crcUpdate c (bytesOf m g) ≠ crcUpdate c (bytesOf m h) := by
  rw [bytesOf_around hk g, bytesOf_around hk h, bytesOf_congr fun i hi => heq i (by omega) (by omega),
    bytesOf_congr fun i hi => heq (k + (1 + i)) (by omega) (by omega)]
  exact crcUpdate_ne_of_byte_ne c _ _ hne

/-- The checksum field of a frame holds the checksum of its body. -/
theorem checksum_frameByte (n : Nat) (f : Nat → Byte) :
    (crcUpdate Config.crcInit (bytesOf (4 + n) fun i => frameByte n f (4 + i))
      ^^^ Config.crcXorOut).toNat = fromLe32 (bytesOf Config.headerBytes (frameByte n f)) := by
  rw [bytesOf_frameByte_header, fromLe32_le32_append, bytesOf_frameByte_body, frameCrc, bytesOf_length]

/-- A frame with one byte changed: either the checksum field changed and the body did not, or the body
changed and with it its checksum, and the field did not. -/
theorem checksumMatches_of_changed {n j : Nat} {f g : Nat → Byte} (hj : j < n + 8)
    (hne : g j ≠ frameByte n f j) (heq : ∀ i, i < n + 8 → i ≠ j → g i = frameByte n f i) :
    checksumMatches n g = false := by
  rw [checksumMatches, decide_eq_false_iff_not]
  intro hmatch
  by_cases hfield : j < 4
  · rw [bytesOf_congr fun i hi => heq (4 + i) (by omega) (by omega), checksum_frameByte] at hmatch
    exact hne (fromLe32_bytesOf_eq_iff.1 hmatch j hfield).symm
  · rw [fromLe32_bytesOf_eq_iff.2 fun i hi => heq i (by omega) (by omega),
      ← checksum_frameByte] at hmatch
    have hcrc := (BitVec.xor_left_inj _).1 (BitVec.eq_of_toNat_eq hmatch)
    have hj4 : 4 + (j - 4) = j := by omega
    exact crcUpdate_bytesOf_ne Config.crcInit (k := j - 4) (by omega) (by rwa [hj4])
      (fun i hi hij => heq (4 + i) (by omega) (by omega)) hcrc

/-- Settles O42: the length bytes 4 to 6 stand as they were, so the payload length is found, and the
checksum is not. -/
theorem frameTamperDetected : Obligations.FrameTamperDetected := by
  unfold Obligations.FrameTamperDetected
  intro u f g n j buf hn hin hlen hm hj h4 h5 h6 hne heq
  have hd : declared g = n := by
    rw [declared, heq 4 (by omega) h4.symm, heq 5 (by omega) h5.symm, heq 6 (by omega) h6.symm]
    exact declared_frameByte hn f
  refine ⟨_, exec_frameCheck_of_holds hd hin hlen (Nat.add_comm n 8 ▸ hm), rfl, ?_⟩
  rw [State.setResult_status, State.setStatus_status, checksumMatches_of_changed hj hne heq,
    Status.setInteg]

end Sys2Proof.Machine
end

section
/-! The statements of 43_quantizer.md, QUANT (R170, R173) and DEQUANT (R172, R174) and the two together
(R175, R176), and UNPACK (44_pixel_pack.md R196), which dequantizes a pixel array. -/

namespace Sys2Proof.Machine

/-! ### The fields of `ARG` (30_encoding.md R93) -/

theorem Latch.argByte_eq (op : Latch) : op.argByte = BitVec.ofNat 8 (op.arg.toNat % 256) :=
  lowByte_eq_ofNat op.arg

theorem Latch.argByte_toNat (op : Latch) : op.argByte.toNat = op.arg.toNat % 256 := by
  rw [Latch.argByte_eq, BitVec.toNat_ofNat, Nat.mod_mod]

theorem Latch.argSlice_toNat (op : Latch) : op.argSlice.toNat = op.arg.toNat / 256 % 4 := by
  rw [Latch.argSlice, BitVec.extractLsb'_toNat, Nat.shiftRight_eq_div_pow]

/-! ### QUANT (R173) -/

/-- A quantized symbol keeps all of `85 * n` in its byte (R171). -/
theorem q_toNat {n : Nat} (hn : n < 4) : (q n).toNat = 85 * n := by
  rw [q, toByte, BitVec.toNat_ofNat, Config.qStep]
  omega

/-- QUANT, for every `ARG`: the slice that `SLICE` selects is one of the four. -/
theorem exec_quant (s : State) :
    exec .quant s = .next (s.setResult (85 * sliceDigit s.op.argByte s.op.argSlice.toNat)) := by
  rw [exec, execQuant, sym_eq_sliceDigit _ s.op.argSlice.isLt, q_toNat (sliceDigit_lt _ _)]

/-- Settles O43: what `exec_quant` says, with the fields of `ARG` as numbers. -/
theorem quantResult : Obligations.QuantResult := by
  unfold Obligations.QuantResult
  intro s
  rw [exec_quant, sliceDigit, Latch.argByte_toNat, Latch.argSlice_toNat]
  rfl

/-! ### DEQUANT (R174) -/

/-- DEQUANT, for every `ARG`, by the thresholds of R172. -/
theorem exec_dequant (s : State) : exec .dequant s = .next (s.setResult (levelOf s.op.argByte)) := by
  rw [exec, execDequant, dq_eq_levelOf]

/-- Settles O44: what `exec_dequant` says, with `CHAN` as a number. -/
theorem dequantResult : Obligations.DequantResult := by
  unfold Obligations.DequantResult
  intro s
  rw [exec_dequant, Latch.argByte_eq]
  rfl

/-! ### DEQUANT undoes QUANT (R175, R176) -/

/-- The thresholds stand more than 42 from every quantized symbol: a channel that near has its level. -/
theorem levelOf_of_near {n : Nat} {c : Byte} (hn : n < 4) (hle : c.toNat ≤ 85 * n + 42)
    (hge : 85 * n ≤ c.toNat + 42) : levelOf c = n := by
  unfold levelOf
  interval_cases n
  · rw [if_pos hle]
  · rw [if_neg (by omega), if_pos hle]
  · rw [if_neg (by omega), if_neg (by omega), if_pos hle]
  · rw [if_neg (by omega), if_neg (by omega), if_neg (by omega)]

/-- Settles O45: `RESULT` of QUANT is 85 times the slice, and the channel is near it. -/
theorem quantizationStable : Obligations.QuantizationStable := by
  unfold Obligations.QuantizationStable
  intro s t u c symbol ht hc hle hge
  obtain rfl := Host.Outcome.next.inj ((exec_quant s).symm.trans ht)
  have hsymbol : sliceDigit s.op.argByte s.op.argSlice.toNat = symbol := by
    rw [Latch.argByte_eq, Latch.argSlice_toNat]
  have hlt : symbol < 4 := sliceDigit_lt _ _
  rw [State.setResult_result, hsymbol, toWord_toNat (by omega)] at hle hge
  have hchan : u.op.argByte = c := BitVec.eq_of_toNat_eq (u.op.argByte_toNat.trans hc)
  rw [exec_dequant, hchan, levelOf_of_near hlt hle hge]
  rfl

/-! ### UNPACK (44_pixel_pack.md R196) -/

/-- UNPACK within its bounds stores the bytes of the pixel array it reads. -/
theorem exec_unpack_of_holds {s : State} {f : Nat → Byte}
    (hsrc : InLmem s.memSize.toNat s.op.srcAddr (3 * s.op.count))
    (hdst : InLmem s.memSize.toNat s.op.dstAddr (3 * ceilDiv s.op.count 4))
    (hapart : ¬ Overlap s.op.srcAddr (3 * s.op.count) s.op.dstAddr (3 * ceilDiv s.op.count 4))
    (hm : s.lmem.Holds s.op.srcAddr (3 * s.op.count) f) :
    exec .unpack s =
      .next ((s.store s.op.dstAddr (unpackBytes s.op.count (bytesOf (3 * s.op.count) f))).setResult
        (3 * ceilDiv s.op.count 4)) :=
  withChecks_withBytes (firstFault_of_ranges nofun rfl rfl hsrc hdst hapart)
    (Memory.readBytes_of_holds hm)

/-- Settles O48: the answer is `exec_unpack_of_holds`, and the bytes stored are `unpackedByte`. -/
theorem unpackResult : Obligations.UnpackResult := by
  unfold Obligations.UnpackResult
  intro s f N G src dst hsrc hdst hapart hm
  have hl : (unpackBytes N (bytesOf (3 * N) f)).length = 3 * G := unpackBytes_length _ _
  exact ⟨_, exec_unpack_of_holds hsrc hdst hapart hm, rfl,
    Memory.holds_writeBytes hl fun _ => byteAt_unpackBytes_bytesOf f,
    Memory.writeBytes_sameOutside _ _ _ hl⟩

end Sys2Proof.Machine
end

section
/-! The statements of 44_pixel_pack.md: PACK (R190 to R192), csqrt (R194), CANVAS (R195), and UNPACK of
what PACK wrote (R197) and of a canvas (R198). -/

namespace Sys2Proof.Machine

/-! ### PACK (R192) -/

/-- PACK within its bounds stores the pixel array of the frame it reads. -/
theorem exec_pack_of_holds {s : State} {f : Nat → Byte}
    (hsrc : InLmem s.memSize.toNat s.op.srcAddr s.op.count)
    (hdst : InLmem s.memSize.toNat s.op.dstAddr (12 * ceilDiv s.op.count 3))
    (hapart : ¬ Overlap s.op.srcAddr s.op.count s.op.dstAddr (12 * ceilDiv s.op.count 3))
    (hm : s.lmem.Holds s.op.srcAddr s.op.count f) :
    exec .pack s =
      .next ((s.store s.op.dstAddr (packBytes (bytesOf s.op.count f))).setResult
        (4 * ceilDiv s.op.count 3)) :=
  withChecks_withBytes (firstFault_of_ranges nofun rfl rfl hsrc hdst hapart)
    (Memory.readBytes_of_holds hm)

/-- Settles O46: the answer is `exec_pack_of_holds`, and the bytes stored are `packedChannel`. -/
theorem packResult : Obligations.PackResult := by
  unfold Obligations.PackResult
  intro s f L G src dst hsrc hdst hapart hm
  have hl : (packBytes (bytesOf L f)).length = 12 * G := by
    rw [packBytes_length, bytesOf_length]
    rfl
  exact ⟨_, exec_pack_of_holds hsrc hdst hapart hm, rfl,
    Memory.holds_writeBytes hl fun _ => byteAt_packBytes_bytesOf f,
    Memory.writeBytes_sameOutside _ _ _ hl⟩

/-! ### csqrt (R194) and CANVAS (R195) -/

/-- Settles O49: `csqrt n` is such a least number, and there is only one. -/
theorem csqrtIsLeast : Obligations.CsqrtIsLeast := by
  unfold Obligations.CsqrtIsLeast
  exact fun n s => ⟨fun h => h ▸ csqrt_spec n, fun h => h.eq_csqrt.symm⟩

/-- CANVAS within its bounds stores the canvas of the pixels it reads. -/
theorem exec_canvas_of_holds {s : State} {f : Nat → Byte}
    (hsrc : InLmem s.memSize.toNat s.op.srcAddr (3 * s.op.count))
    (hdst : InLmem s.memSize.toNat s.op.dstAddr (3 * csqrt s.op.count * csqrt s.op.count))
    (hapart : ¬ Overlap s.op.srcAddr (3 * s.op.count) s.op.dstAddr
      (3 * csqrt s.op.count * csqrt s.op.count))
    (hm : s.lmem.Holds s.op.srcAddr (3 * s.op.count) f) :
    exec .canvas s =
      .next ((s.store s.op.dstAddr (canvasBytes s.op.count (bytesOf (3 * s.op.count) f))).setResult
        (csqrt s.op.count)) :=
  withChecks_withBytes (firstFault_of_ranges nofun rfl rfl hsrc hdst hapart)
    (Memory.readBytes_of_holds hm)

/-- Settles O47: the side is `csqrt P`, the answer is `exec_canvas_of_holds`, and the bytes stored are the
pixels, then white. -/
theorem canvasResult : Obligations.CanvasResult := by
  unfold Obligations.CanvasResult
  intro s f side P src dst hside hsrc hdst hapart hm
  obtain rfl := hside.eq_csqrt
  have hl : (canvasBytes P (bytesOf (3 * P) f)).length = 3 * csqrt P * csqrt P :=
    canvasBytes_length _ _
  exact ⟨_, exec_canvas_of_holds hsrc hdst hapart hm, rfl,
    Memory.holds_writeBytes hl fun _ => byteAt_canvasBytes_bytesOf f,
    Memory.writeBytes_sameOutside _ _ _ hl⟩

/-! ### UNPACK of what PACK wrote (R197) -/

/-- Settles O50: `RESULT` of PACK is `4 * G` without loss, as the pixel array fits LMEM, so UNPACK reads
the whole array, and `unpackedByte_of_packed` says what it makes of it. -/
theorem packUnpackRoundTrip : Obligations.PackUnpackRoundTrip := by
  unfold Obligations.PackUnpackRoundTrip
  intro s t u f L G src dst pix out hsrc hdst hapart hm hpack hlen hcopy hin hout hapart'
  obtain ⟨t', hexec, ht, hpacked, -⟩ := packResult s f hsrc hdst hapart hm
  obtain rfl := Host.Outcome.next.inj (hexec.symm.trans hpack)
  have hN : u.op.len.toNat = 4 * G := by
    have hsize := s.memSize.isLt
    have hresult : t'.result = toWord (4 * G) := by rw [ht]; rfl
    rw [hlen, hresult, toWord_toNat (by rcases hdst with h | h <;> omega)]
  have hread : 3 * u.op.len.toNat = 12 * G := by omega
  have hwritten : (u.op.len.toNat + 3) / 4 = G := by omega
  have harray : u.lmem.Holds pix (12 * G) (packedChannel L f) := fun i hi => by
    rw [hcopy i hi, hpacked i hi]
  obtain ⟨v, hv, hres, hbytes, -⟩ := unpackResult u (packedChannel L f) (by rwa [hread])
    (by rwa [hwritten]) (by rwa [hread, hwritten]) (by rwa [hread])
  rw [hwritten] at hres hbytes
  refine ⟨v, hv, by rw [hres], fun i hi => ?_⟩
  rw [hbytes i hi, unpackedByte_of_packed hN.ge (fun _ _ => rfl) hi]

/-! ### UNPACK of a canvas (R198) -/

/-- The byte whose first `m` of four channels are white and whose other channels are missing. -/
def leadingWhite (m : Nat) : Byte := BitVec.ofNat 8 (256 - 4 ^ (4 - m))

/-- With no channel missing the byte is FF. -/
theorem leadingWhite_of_le {m : Nat} (h : 4 ≤ m) : leadingWhite m = 0xFF#8 := by
  rw [leadingWhite, Nat.sub_eq_zero_of_le h]
  rfl

/-- The level of a channel that is white or past the end of the array. -/
theorem levelOf_padded_white {n k : Nat} {g : Nat → Byte} (h : g k = Config.white) :
    levelOf (padded n g k) = if k < n then 3 else 0 := by
  rw [padded, h]
  split <;> rfl

/-- UNPACK of four channels that are white or past the end of the array. -/
theorem unpackedByte_of_white {n i : Nat} {g : Nat → Byte} (h : ∀ j, j < 4 → g (4 * i + j) = Config.white) :
    unpackedByte n g i = leadingWhite (3 * n - 4 * i) := by
  have hlevel : ∀ j, j < 4 →
      levelOf (padded (3 * n) g (4 * i + j)) = if j < 3 * n - 4 * i then 3 else 0 := fun j hj => by
    rw [levelOf_padded_white (h j hj)]
    simp only [Nat.lt_sub_iff_add_lt']
  have h0 := hlevel 0 (by decide)
  rw [Nat.add_zero] at h0
  simp only [unpackedByte, h0, hlevel 1 (by decide), hlevel 2 (by decide), hlevel 3 (by decide)]
  generalize 3 * n - 4 * i = m
  by_cases hm : m < 4
  · interval_cases m <;> rfl
  · rw [leadingWhite_of_le (by omega), if_pos (by omega), if_pos (by omega), if_pos (by omega),
      if_pos (by omega)]

/-- Channel `k` of the pixels of a frame of `n` bytes and of white pixels after them (R195). -/
def canvasChannel (n : Nat) (f : Nat → Byte) (k : Nat) : Byte :=
  if k < 12 * ceilDiv n 3 then packedChannel n f k else Config.white

/-- The bytes of a canvas before the white pixels are the frame and its zero pad. -/
theorem unpackedByte_canvasChannel_frame {n p i : Nat} {f : Nat → Byte} (hp : 4 * ceilDiv n 3 ≤ p)
    (hi : i < 3 * ceilDiv n 3) : unpackedByte p (canvasChannel n f) i = padded n f i :=
  unpackedByte_of_packed hp (fun _ hk => if_pos hk) hi

/-- The bytes of a canvas after its frame depend on how many channels are left. -/
theorem unpackedByte_canvasChannel_white {n p i : Nat} {f : Nat → Byte} (hi : 3 * ceilDiv n 3 ≤ i) :
    unpackedByte p (canvasChannel n f) i = leadingWhite (3 * p - 4 * i) :=
  unpackedByte_of_white fun _ _ => if_neg (by omega)

/-- A part of what LMEM holds. -/
theorem Memory.Holds.part {m : Memory} {a n k c : Nat} {f g : Nat → Byte} (h : m.Holds a n f)
    (hk : k + c ≤ n) (hg : ∀ i, i < c → f (k + i) = g i) : m.Holds (a + k) c g := fun i hi => by
  rw [Nat.add_assoc, h _ (by omega), hg i hi]

/-- Settles O51: UNPACK reads `canvasChannel`, so it writes the frame and its pad, then `leadingWhite`
bytes, of which only those of the last group can miss a channel. -/
theorem canvasReadBack : Obligations.CanvasReadBack := by
  unfold Obligations.CanvasReadBack
  intro u f L G N pix out hGN hsrc hdst hapart hm
  obtain ⟨v, hv, -, hbytes, -⟩ := unpackResult u (canvasChannel L f) hsrc hdst hapart hm
  have hG : ceilDiv L 3 = G := rfl
  have hlast : ∀ (r : Nat) (l : List Byte), 0 < r →
      (∀ c, c < 3 → leadingWhite (3 * r - 4 * c) = byteAt l c) → N % 4 = r →
      v.lmem.Holds (out + 3 * (N / 4)) 3 (byteAt l) := by
    intro r l hr hl hN
    refine hbytes.part (by omega) fun c hc => ?_
    rw [unpackedByte_canvasChannel_white (by omega), ← hl c hc]
    exact congrArg leadingWhite (by omega)
  refine ⟨v, hv, fun i hi => ?_, hbytes.part (by omega) fun i hi => ?_,
    hlast 1 _ (by decide) (by decide), hlast 2 _ (by decide) (by decide),
    hlast 3 _ (by decide) (by decide)⟩
  · rw [hbytes i (by omega), unpackedByte_canvasChannel_frame hGN hi]
  · rw [unpackedByte_canvasChannel_white (by omega), leadingWhite_of_le (by omega)]

end Sys2Proof.Machine
end

section
/-! The statements of 45_resampler.md: UPSCALE2X (R220, R221), DOWNSCALE2X (R222, R223), the one after the
other (R224), the side of an encoded image (R225) and one inverted bit of it (R226). -/

namespace Sys2Proof.Machine

/-! ### UPSCALE2X (R220, R221) -/

/-- A channel of a pixel of the doubled image stands in its range (20_memory.md R68). -/
theorem doubled_offset_lt {w h x y ch : Nat} (hx : x < 2 * w) (hy : y < 2 * h) (hch : ch < 3) :
    3 * (y * (2 * w) + x) + ch < 12 * w * h :=
  (pixel_offset_lt hx hy hch).trans_eq (by ring)

/-- UPSCALE2X within its bounds stores the doubled image of the image it reads. -/
theorem exec_upscale2x_of_holds {s : State} {f : Nat → Byte}
    (hsrc : InLmem s.memSize.toNat s.op.srcAddr (3 * s.op.w * s.op.h))
    (hdst : InLmem s.memSize.toNat s.op.dstAddr (12 * s.op.w * s.op.h))
    (hapart : ¬ Overlap s.op.srcAddr (3 * s.op.w * s.op.h) s.op.dstAddr (12 * s.op.w * s.op.h))
    (hm : s.lmem.Holds s.op.srcAddr (3 * s.op.w * s.op.h) f) :
    exec .upscale2x s =
      .next ((s.store s.op.dstAddr
        (upscaleBytes s.op.w s.op.h (bytesOf (3 * s.op.w * s.op.h) f))).setResult (2 * s.op.w)) :=
  withChecks_withBytes (firstFault_of_ranges nofun rfl rfl hsrc hdst hapart)
    (Memory.readBytes_of_holds hm)

/-- A register keeps the low 32 bits of a number (00_scope.md R9). -/
theorem toWord_eq_ofNat_mod (n : Nat) : toWord n = BitVec.ofNat 32 (n % 2 ^ 32) :=
  BitVec.eq_of_toNat_eq (by rw [toWord, BitVec.toNat_ofNat, BitVec.toNat_ofNat, Nat.mod_mod])

/-- Settles O52: the answer is `exec_upscale2x_of_holds`, and the bytes stored are those of the doubled
image. -/
theorem upscaleResult : Obligations.UpscaleResult := by
  unfold Obligations.UpscaleResult
  intro s f W H src dst hsrc hdst hapart hm
  have hl : (upscaleBytes W H (bytesOf (3 * W * H) f)).length = 12 * W * H := upscaleBytes_length _ _ _
  refine ⟨_, exec_upscale2x_of_holds hsrc hdst hapart hm, ?_, fun x y ch hx hy hch => ?_,
    Memory.writeBytes_sameOutside _ _ _ hl⟩
  · rw [← toWord_eq_ofNat_mod]
    rfl
  · rw [Nat.add_assoc, ← byteAt_upscaleBytes_bytesOf f hx hy hch]
    exact Memory.read_writeBytes_in (hl.symm ▸ doubled_offset_lt hx hy hch)

/-! ### DOWNSCALE2X (R222, R223) -/

/-- Channel `k` of the image of width `w` whose pixels are the means of the 2 by 2 blocks of `I` (R222). -/
def meanByte (w : Nat) (I : Nat → Nat → Nat → Byte) (k : Nat) : Byte :=
  let x := k / 3 % w
  let y := k / 3 / w
  let ch := k % 3
  boxMean (I (2 * x) (2 * y) ch) (I (2 * x + 1) (2 * y) ch) (I (2 * x) (2 * y + 1) ch)
    (I (2 * x + 1) (2 * y + 1) ch)

/-- The channels of an image of means, pixel by pixel (20_memory.md R68). -/
theorem meanByte_pixel {w x y ch : Nat} (I : Nat → Nat → Nat → Byte) (hx : x < w) (hch : ch < 3) :
    meanByte w I (3 * (y * w + x) + ch) = boxMean (I (2 * x) (2 * y) ch) (I (2 * x + 1) (2 * y) ch)
      (I (2 * x) (2 * y + 1) ch) (I (2 * x + 1) (2 * y + 1) ch) := by
  have hpixel : (3 * (y * w + x) + ch) / 3 = y * w + x := by omega
  have hchannel : (3 * (y * w + x) + ch) % 3 = ch := by omega
  have hcol : (y * w + x) % w = x := by rw [Nat.mul_add_mod', Nat.mod_eq_of_lt hx]
  have hrow : (y * w + x) / w = y := by
    rw [Nat.mul_comm, Nat.mul_add_div (Nat.zero_lt_of_lt hx), Nat.div_eq_of_lt hx, Nat.add_zero]
  rw [meanByte, hpixel, hchannel, hcol, hrow]

/-- DOWNSCALE2X reads an image as the image of its means; it needs no odd last row or column. -/
theorem downscaleRead_of_image {m : Memory} {a w h : Nat} {I : Nat → Nat → Nat → Byte}
    (hm : ∀ x y ch, x < 2 * (w / 2) → y < 2 * (h / 2) → ch < 3 →
      m.read (a + 3 * (y * w + x) + ch) = some (I x y ch)) :
    downscaleRead m a w h = some (bytesOf (3 * (w / 2) * (h / 2)) (meanByte (w / 2) I)) := by
  refine readAll_of_forall fun k hk => ?_
  obtain ⟨hx, hy, hch, -⟩ := channel_index (List.mem_range.1 hk)
  exact blockMean_of_image hm hx hy hch

/-- DOWNSCALE2X within its bounds stores the bytes that `downscaleRead` answers. -/
theorem exec_downscale2x_of_read {s : State} {bs : List Byte}
    (hsrc : InLmem s.memSize.toNat s.op.srcAddr (3 * s.op.w * s.op.h))
    (hdst : InLmem s.memSize.toNat s.op.dstAddr (3 * (s.op.w / 2) * (s.op.h / 2)))
    (hapart : ¬ Overlap s.op.srcAddr (3 * s.op.w * s.op.h) s.op.dstAddr
      (3 * (s.op.w / 2) * (s.op.h / 2)))
    (hread : downscaleRead s.lmem s.op.srcAddr s.op.w s.op.h = some bs) :
    exec .downscale2x s = .next ((s.store s.op.dstAddr bs).setResult (s.op.w / 2)) :=
  withChecks_withBytes (firstFault_of_ranges nofun rfl rfl hsrc hdst hapart) hread

/-- Settles O53: the answer is `exec_downscale2x_of_read` with `downscaleRead_of_image`, and the bytes stored
are the means. -/
theorem downscaleResult : Obligations.DownscaleResult := by
  unfold Obligations.DownscaleResult
  intro s I W H src dst hsrc hdst hapart hm
  have hl : (bytesOf (3 * (W / 2) * (H / 2)) (meanByte (W / 2) I)).length = 3 * (W / 2) * (H / 2) :=
    bytesOf_length _ _
  refine ⟨_, exec_downscale2x_of_read hsrc hdst hapart (downscaleRead_of_image hm), rfl,
    fun x y ch hx hy hch => ?_, Memory.writeBytes_sameOutside _ _ _ hl⟩
  have hstored := Memory.holds_writeBytes (m := s.lmem) (a := dst) hl fun _ => byteAt_map_range
  rw [Nat.add_assoc]
  exact (hstored _ (pixel_offset_lt hx hy hch)).trans (congrArg some (meanByte_pixel I hx hch))

/-! ### DOWNSCALE2X of a doubled image (R224) -/

/-- DOWNSCALE2X within its bounds, with an image of twice the width and height of the one it writes. -/
theorem exec_downscale2x_of_doubled {u : State} {w h : Nat} {g : Nat → Byte} (hw : u.op.w = 2 * w)
    (hh : u.op.h = 2 * h) (hsrc : InLmem u.memSize.toNat u.op.srcAddr (12 * w * h))
    (hdst : InLmem u.memSize.toNat u.op.dstAddr (3 * w * h))
    (hapart : ¬ Overlap u.op.srcAddr (12 * w * h) u.op.dstAddr (3 * w * h))
    (hread : downscaleRead u.lmem u.op.srcAddr (2 * w) (2 * h) = some (bytesOf (3 * w * h) g)) :
    ∃ v, exec .downscale2x u = .next v ∧ v.result = toWord w ∧
      v.lmem.Holds u.op.dstAddr (3 * w * h) g := by
  have hsource : 3 * u.op.w * u.op.h = 12 * w * h := by
    rw [hw, hh]
    ring
  have hwidth : u.op.w / 2 = w := by omega
  have hheight : u.op.h / 2 = h := by omega
  refine ⟨_, exec_downscale2x_of_read (by rwa [hsource]) (by rwa [hwidth, hheight])
    (by rwa [hsource, hwidth, hheight]) (by rwa [hw, hh]), congrArg toWord hwidth, ?_⟩
  exact Memory.holds_writeBytes (bytesOf_length _ _) fun _ => byteAt_map_range

/-- Settles O54: UPSCALE2X stored the doubled image, which `downscaleRead_of_upscaled` reads as the first
image. -/
theorem downscaleInvertsUpscale : Obligations.DownscaleInvertsUpscale := by
  unfold Obligations.DownscaleInvertsUpscale
  intro s t u f W H src dst img out hsrc hdst hapart hm hup hw hh hcopy himg hout hapart'
  obtain rfl := Host.Outcome.next.inj ((exec_upscale2x_of_holds hsrc hdst hapart hm).symm.trans hup)
  have himage : u.lmem.Holds img (12 * W * H) (byteAt (upscaleBytes W H (bytesOf (3 * W * H) f))) :=
    fun i hi => (hcopy i hi).trans
      (Memory.read_writeBytes_in ((upscaleBytes_length _ _ _).symm ▸ hi))
  obtain ⟨v, hv, hresult, hbytes⟩ :=
    exec_downscale2x_of_doubled hw hh himg hout hapart' (downscaleRead_of_upscaled himage)
  exact ⟨v, hv, hresult.trans (BitVec.eq_of_toNat_eq (toWord_toNat s.op.width.isLt)), hbytes⟩

/-! ### The side of an encoded image (R225) -/

theorem csqrt_le_csqrt {m n : Nat} (h : m ≤ n) : csqrt m ≤ csqrt n :=
  (csqrt_spec m).2 _ (h.trans (csqrt_spec n).1)

/-- The numbers above one square and up to the next have one `csqrt`. -/
theorem csqrt_eq_succ {n r : Nat} (hlo : r * r < n) (hhi : n ≤ (r + 1) * (r + 1)) :
    csqrt n = r + 1 :=
  (csqrtIsLeast n (r + 1)).2 ⟨hhi, fun _ ht => Nat.mul_self_lt_mul_self_iff.1 (hlo.trans_le ht)⟩

/-- Settles O55: the pixel count of the payload grows with it, and is 12 or 16, then 20 or 24. -/
theorem encodedSide : Obligations.EncodedSide := by
  unfold Obligations.EncodedSide
  refine ⟨fun m n hmn => ?_, fun n hn => ?_, fun n hlo hhi => ?_⟩
  · have hpixels : 4 * ceilDiv (m + 8) 3 ≤ 4 * ceilDiv (n + 8) 3 := by
      unfold ceilDiv
      omega
    exact Nat.mul_le_mul_left 2 (csqrt_le_csqrt hpixels)
  · exact congrArg (2 * ·) (csqrt_eq_succ (r := 3) (by unfold ceilDiv; omega) (by unfold ceilDiv; omega))
  · exact congrArg (2 * ·) (csqrt_eq_succ (r := 4) (by unfold ceilDiv; omega) (by unfold ceilDiv; omega))

/-! ### One inverted bit of a doubled image of levels (R226) -/

/-- One inverted bit moves a quantized symbol by at most 128. -/
theorem invertedBit_near : ∀ k < 8, ∀ b ∈ [0x00#8, 0x55#8, 0xAA#8, 0xFF#8],
    (b ^^^ (1#8 <<< k)).toNat ≤ b.toNat + 128 ∧ b.toNat ≤ (b ^^^ (1#8 <<< k)).toNat + 128 := by
  decide

/-- The quantized symbols, as multiples of 85 (43_quantizer.md R171). -/
theorem level_toNat : ∀ b ∈ [0x00#8, 0x55#8, 0xAA#8, 0xFF#8],
    levelOf b < 4 ∧ b.toNat = 85 * levelOf b := by
  decide

/-- The mean of four samples fits a byte (R222). -/
theorem boxMean_toNat (a b c d : Byte) :
    (boxMean a b c d).toNat = (a.toNat + b.toNat + c.toNat + d.toNat + 2) / 4 := by
  rw [boxMean, toByte, BitVec.toNat_ofNat]
  omega

/-- Samples whose sum is within 128 of four times a quantized symbol: their mean is within 32 of it, so it
has its level. -/
theorem levelOf_boxMean_of_near {a b c d e : Byte} (he : e ∈ [0x00#8, 0x55#8, 0xAA#8, 0xFF#8])
    (hle : a.toNat + b.toNat + c.toNat + d.toNat ≤ 4 * e.toNat + 128)
    (hge : 4 * e.toNat ≤ a.toNat + b.toNat + c.toNat + d.toNat + 128) :
    levelOf (boxMean a b c d) = levelOf e := by
  obtain ⟨hlt, hvalue⟩ := level_toNat e he
  have hmean := boxMean_toNat a b c d
  exact levelOf_of_near hlt (by omega) (by omega)

/-- The doubled image of `f`, of width `w`, with bit `k` of channel `c₀` of the sample (x₀, y₀) inverted. -/
def disturbedImage (w : Nat) (f : Nat → Byte) (x₀ y₀ c₀ k x y ch : Nat) : Byte :=
  let b := f (3 * (y / 2 * w + x / 2) + ch)
  if x = x₀ ∧ y = y₀ ∧ ch = c₀ then b ^^^ (1#8 <<< k) else b

/-- At most one of the four samples of a block is disturbed, so the mean keeps the block's level. -/
theorem levelOf_meanByte_disturbedImage {w h k i : Nat} {f : Nat → Byte} (x₀ y₀ c₀ : Nat)
    (hf : ∀ i, i < 3 * w * h → f i ∈ [0x00#8, 0x55#8, 0xAA#8, 0xFF#8]) (hk : k < 8)
    (hi : i < 3 * w * h) :
    levelOf (meanByte w (disturbedImage w f x₀ y₀ c₀ k) i) = levelOf (f i) := by
  obtain ⟨hle, hge⟩ := invertedBit_near k hk (f i) (hf i hi)
  obtain ⟨-, -, -, hindex⟩ := channel_index hi
  simp only [meanByte, disturbedImage, Nat.mul_div_cancel_left _ (show 0 < 2 by decide),
    show ∀ z, (2 * z + 1) / 2 = z by omega, hindex]
  apply levelOf_boxMean_of_near (hf i hi) <;> split_ifs <;> omega

/-- DOWNSCALE2X reads an image of even width and height as the image of its means. -/
theorem downscaleRead_of_even {m : Memory} {a w h : Nat} {I : Nat → Nat → Nat → Byte}
    (hm : ∀ x y ch, x < 2 * w → y < 2 * h → ch < 3 →
      m.read (a + 3 * (y * (2 * w) + x) + ch) = some (I x y ch)) :
    downscaleRead m a (2 * w) (2 * h) = some (bytesOf (3 * w * h) (meanByte w I)) := by
  have hwidth : 2 * w / 2 = w := Nat.mul_div_cancel_left w (by decide)
  have hheight : 2 * h / 2 = h := Nat.mul_div_cancel_left h (by decide)
  have hread := downscaleRead_of_image (w := 2 * w) (h := 2 * h) (by rwa [hwidth, hheight])
  rwa [hwidth, hheight] at hread

/-- Settles O56: DOWNSCALE2X writes the means of the disturbed image, and each keeps its level. -/
theorem oneBitFlipAbsorbed : Obligations.OneBitFlipAbsorbed := by
  unfold Obligations.OneBitFlipAbsorbed
  intro u f W H x₀ y₀ c₀ k img out level hw hh himg hout hapart hf hk hm
  have hread : downscaleRead u.lmem img (2 * W) (2 * H) =
      some (bytesOf (3 * W * H) (meanByte W (disturbedImage W f x₀ y₀ c₀ k))) :=
    downscaleRead_of_even hm
  obtain ⟨v, hv, -, hbytes⟩ := exec_downscale2x_of_doubled hw hh himg hout hapart hread
  exact ⟨v, hv, fun i hi => ⟨_, hbytes i hi, levelOf_meanByte_disturbedImage x₀ y₀ c₀ hf hk hi⟩⟩

end Sys2Proof.Machine
end

section
/-! The statements of 60_exceptions.md: the one check that fails first (R243 to R247), what recording a
fault changes (R240, R242, R248), and when `IRQ` falls (R252). -/

namespace Sys2Proof.Machine

/-! ### A word that is no command (R242) -/

/-- Settles O27: the turn is the engine step on a rejected word, which records `BADCMD` and completes. -/
theorem badCommandFault : Obligations.BadCommandFault := by
  unfold Obligations.BadCommandFault
  intro s e hn hb hd
  rw [step_engine_of_busy hn hb]
  exact engineStep_of_error hd

/-! ### What a command may do to `STATUS` (R240, R248) -/

/-- Settles O29: `exec_next` tells a recorded fault from effects, and effects write no field of `STATUS`
but `INTEG_OK`. -/
theorem faultsWriteNothingElse : Obligations.FaultsWriteNothingElse := by
  unfold Obligations.FaultsWriteNothingElse
  intro i s t h
  rcases exec_next h with ⟨c, hc, ht⟩ | heff
  · exact .inl ⟨c.code, hc, ht.trans (raiseFault_some i c s)⟩
  · exact .inr ⟨congrArg State.status heff.frame, heff.integ⟩

/-! ### The order of the checks (R243 to R245, R247) -/

/-- A check that fails before the command reads LMEM is all the command answers. -/
theorem exec_of_firstFault {i : Instr} {s : State} {c : FaultCode}
    (h : firstFault i s.op s.memSize.toNat = some c) :
    exec i s = .next (s.faultRecorded i c.code) := by
  rw [← raiseFault_some]
  cases i with
  | nop | crcInit | crcByte | quant | dequant => cases h
  | crcUpdate | pack | canvas | unpack | upscale2x | downscale2x | frameBuild | frameCheck =>
    exact withChecks_of_some h

/-- `LENCEIL` comes before every other check. -/
theorem firstFault_lenCeil {op : Latch} {size : Nat} (h : Config.lenCeiling ≤ op.count) :
    firstFault .frameBuild op size = some .lenCeil :=
  if_pos ⟨rfl, h⟩

section order

variable {i : Instr} {op : Latch} {size : Nat} {q r : Range}
  (hlen : i = .frameBuild → op.count < Config.lenCeiling) (hq : srcRange i op = some q)
include hlen hq

/-- With no `LENCEIL` the source range is checked first. -/
theorem firstFault_source_out (hout : ¬ InLmem size q.base q.size) :
    firstFault i op size = some .range := by
  rw [firstFault, if_neg fun h => (hlen h.1).not_ge h.2, hq, if_pos (mt (rangeOk_some q size).1 hout)]

/-- With the source range in LMEM the destination range is checked next. -/
theorem firstFault_dest_out (hin : InLmem size q.base q.size) (hr : dstRange i op = some r)
    (hout : ¬ InLmem size r.base r.size) : firstFault i op size = some .range := by
  rw [firstFault, if_neg fun h => (hlen h.1).not_ge h.2, hq, hr,
    if_neg (not_not.2 ((rangeOk_some q size).2 hin)), if_pos (mt (rangeOk_some r size).1 hout)]

/-- With both ranges in LMEM it remains whether they overlap. -/
theorem firstFault_overlap (hin : InLmem size q.base q.size) (hr : dstRange i op = some r)
    (hin' : InLmem size r.base r.size) (hover : Overlap q.base q.size r.base r.size) :
    firstFault i op size = some .overlap := by
  rw [firstFault, if_neg fun h => (hlen h.1).not_ge h.2, hq, hr,
    if_neg (not_not.2 ((rangeOk_some q size).2 hin)),
    if_neg (not_not.2 ((rangeOk_some r size).2 hin')), if_pos ((rangesOverlap_some q r).2 hover)]

end order

/-- Settles O32: in each of the four cases, the first check that fails. -/
theorem checkPriority : Obligations.CheckPriority := by
  unfold Obligations.CheckPriority
  refine ⟨fun s h => exec_of_firstFault (firstFault_lenCeil h), fun i s q hlen hq => ⟨?_, ?_⟩⟩
  · exact fun hout => exec_of_firstFault (firstFault_source_out hlen hq hout)
  · refine fun r hin hr => ⟨fun hout => ?_, fun hin' hover => ?_⟩
    · exact exec_of_firstFault (firstFault_dest_out hlen hq hin hr hout)
    · exact exec_of_firstFault (firstFault_overlap hlen hq hin hr hin' hover)

/-! ### The two tests of FRAME_CHECK (R246) -/

/-- A buffer too short for a header is malformed, whatever its bytes are. -/
theorem exec_frameCheck_of_short {s : State} (hin : InLmem s.memSize.toNat s.op.srcAddr s.op.count)
    (hlen : s.op.count < Config.headerBytes) :
    exec .frameCheck s = .next (s.faultRecorded .frameCheck FaultCode.malformed.code) := by
  rw [exec, execFrameCheck, withChecks_of_none (firstFault_of_source rfl rfl hin), if_pos hlen,
    raiseFault_some]

/-- A buffer whose header declares more bytes than follow it is malformed. -/
theorem exec_frameCheck_of_too_long {s : State} {h : Nat → Byte}
    (hin : InLmem s.memSize.toNat s.op.srcAddr s.op.count) (hlen : Config.headerBytes ≤ s.op.count)
    (hm : s.lmem.Holds s.op.srcAddr Config.headerBytes h)
    (hd : s.op.count - Config.headerBytes < declared h) :
    exec .frameCheck s = .next (s.faultRecorded .frameCheck FaultCode.malformed.code) := by
  rw [exec, execFrameCheck, withChecks_of_none (firstFault_of_source rfl rfl hin), if_neg hlen.not_gt,
    Memory.readBytes_of_holds hm, withBytes_some]
  dsimp only
  rw [declaredLen_bytesOf, if_pos hd, raiseFault_some]

/-- Settles O33, by the two tests. -/
theorem malformedFault : Obligations.MalformedFault := by
  unfold Obligations.MalformedFault
  exact fun s hin => ⟨exec_frameCheck_of_short hin, fun h => exec_frameCheck_of_too_long hin⟩

/-! ### When `IRQ` falls (R252) -/

/-- A host access leaves `IRQ` as it was unless it is a write of `CTRL`, `STATUS` or `CMD`. -/
theorem AccessEffect.irq_cases {a : Access} {s t : State} (h : AccessEffect a s t) :
    t.irq = s.irq ∨ ∃ off v, a = ⟨off, 32, .write v⟩ ∧ off ∈ [0x04, 0x08, 0x0C] := by
  cases h with
  | none r h => exact .inl (by rw [h]; rfl)
  | portRead b hin hb h => exact .inl (by rw [h]; rfl)
  | portWrite v hin ha h => exact .inl (by rw [h]; rfl)
  | reg h => exact .inl (by rw [h]; rfl)
  | ctrl v ha h => exact .inr ⟨_, v, ha, by decide⟩
  | status v ha h => exact .inr ⟨_, v, ha, by decide⟩
  | cmd v ha h => exact .inr ⟨_, v, ha, by decide⟩

/-- The engine's turn on a latched command sets `DONE`, so it leaves `IRQ` at 1. -/
theorem irq_of_engine_turn {s t : State} (hn : (nextTurn s).1 = .engine) (hb : s.status.busy = true)
    (h : step s = .next t) (hs : s.irq = true) : t.irq = s.irq := by
  obtain ⟨-, -, hirq, -⟩ := engineStepCompletes.1 s t hn hb h
  rw [hirq, hs]
  exact ((irqLevel.1 s).1 hs).1

/-- Settles O24, by what each step does to `IRQ`. -/
theorem irqFallsOnlyByHostOrReset : Obligations.IrqFallsOnlyByHostOrReset := by
  unfold Obligations.IrqFallsOnlyByHostOrReset
  intro s t hstep hs ht
  have hfalls : t.irq ≠ s.irq := by
    rw [hs, ht]
    decide
  cases step_next hstep with
  | hwReset hn h => exact .inl hn
  | idle hn h => exact absurd (by rw [h]; rfl) hfalls
  | held a rest hm hb hh h => exact absurd (by rw [h]; rfl) hfalls
  | access a rest hm hh he =>
    rcases he.irq_cases with hsame | ⟨off, v, rfl, hoff⟩
    · exact absurd hsame hfalls
    · exact .inr ⟨off, v, rest, hm, hoff⟩
  | badCmd e hn hb hd h => exact absurd (irq_of_engine_turn hn hb hstep hs) hfalls
  | command i u hn hb hd hu h => exact absurd (irq_of_engine_turn hn hb hstep hs) hfalls

end Sys2Proof.Machine
end

section
/-! The statements of 70_reset_and_hazards.md: what a hardware reset leaves in the registers (R271, R275) and
in the LMEM of an abandoned command (R272), the state after power-up (R274, R275), and the idle BPX (R276). -/

namespace Sys2Proof.Machine

/-! ### What a reset leaves in the registers (R271, R275) -/

/-- `CRC_RESULT` is the complement of `CRC_STATE` (10_state.md R39), which a reset sets to all ones. -/
@[simp] theorem resetRegisters_crcResult (s : State) : (resetRegisters s).crcResult = 0#32 :=
  BitVec.xor_self

/-- A reset masks the interrupt (10_state.md R44). -/
@[simp] theorem resetRegisters_irq (s : State) : (resetRegisters s).irq = false := rfl

/-- `STATUS` reads 0 after a reset (10_state.md R24). -/
theorem Status.toWord_reset : Status.reset.toWord = 0x00000000#32 := by decide

/-- At power-up the registers are as a reset leaves them (R274). -/
theorem resetRegisters_resetOf (size : Word) :
    resetRegisters (State.resetOf size) = State.resetOf size := rfl

/-- Settles O17: a hardware reset ends with `resetRegisters`, whatever it did before to LMEM and to the held
access. -/
theorem hardwareResetValues : Obligations.HardwareResetValues := by
  unfold Obligations.HardwareResetValues
  intro s hn
  refine ⟨_, step_hwReset hn, rfl, rfl, rfl, rfl, rfl, rfl, rfl, rfl, rfl, rfl,
    resetRegisters_crcResult _, rfl, hardwareReset_memSize _, resetRegisters_irq _,
    hardwareReset_held _, fun hidle => ?_, fun hfree => hardwareReset_hostQueue hfree⟩
  rw [hardwareReset_lmem, if_neg (Bool.eq_false_iff.1 hidle)]

/-! ### The LMEM of an abandoned command (R272) -/

theorem latchedDst_of_ok {op : Latch} {i : Instr} (h : decode op.word = .ok i) :
    latchedDst op = dstRange i op := by
  rw [latchedDst, h]

theorem latchedDst_of_error {op : Latch} {e : DecodeError} (h : decode op.word = .error e) :
    latchedDst op = none := by
  rw [latchedDst, h]

/-- With no destination range latched, a hardware reset leaves LMEM as it was. -/
theorem hardwareReset_lmem_of_no_dst {s : State} (h : latchedDst s.op = none) :
    (hardwareReset s).lmem = s.lmem := by
  rw [hardwareReset_lmem, abandonCommand, h, ite_self]

/-- A destination range takes one free value for each of its bytes that lies in LMEM (log 5). -/
theorem hardwareReset_lmem_of_dst {s : State} {r : Range} (hb : s.status.busy = true)
    (h : latchedDst s.op = some r) :
    (hardwareReset s).lmem = s.lmem.writeBytes r.base
      (bytesOf (r.clip s.memSize.toNat) fun k => Config.freeByte (s.freeDraws + k)) := by
  rw [hardwareReset_lmem, if_pos hb, abandonCommand, h]
  rfl

/-- What is unchanged outside a range is unchanged outside every longer range from the same address. -/
theorem Memory.SameOutside.mono {m t : Memory} {a k n : Nat} (h : m.SameOutside t a k) (hk : k ≤ n) :
    m.SameOutside t a n :=
  fun x hx => h x (by omega)

theorem Range.clip_le (r : Range) (size : Nat) : r.clip size ≤ r.size :=
  Nat.min_le_left ..

/-- The bytes of a range that lie in LMEM are those of its clipped part. -/
theorem Range.exists_eq_base_add {r : Range} {size x : Nat} (hlo : r.base ≤ x)
    (hhi : x < r.base + r.size) (hx : x < size) : ∃ k, k < r.clip size ∧ x = r.base + k :=
  ⟨x - r.base, by unfold Range.clip; omega, by omega⟩

/-- A hardware reset with a destination range latched changes LMEM only in that range, and leaves a value
in each of its bytes that lies in LMEM. -/
theorem hardwareReset_dst {s : State} {r : Range} (hb : s.status.busy = true)
    (h : latchedDst s.op = some r) :
    s.lmem.SameOutside (hardwareReset s).lmem r.base r.size ∧
      ∀ x, r.base ≤ x → x < r.base + r.size → x < s.memSize.toNat →
        ∃ b, (hardwareReset s).lmem.read x = some b := by
  rw [hardwareReset_lmem_of_dst hb h]
  constructor
  · exact (Memory.writeBytes_sameOutside _ _ _ (bytesOf_length ..)).mono (r.clip_le _)
  · intro x hlo hhi hx
    obtain ⟨k, hk, rfl⟩ := r.exists_eq_base_add hlo hhi hx
    exact ⟨_, Memory.read_writeBytes_in (by rwa [bytesOf_length])⟩

/-- Settles O18, by what is latched: a command with a destination range, one without, or no command. -/
theorem resetAbandonsCommand : Obligations.ResetAbandonsCommand := by
  unfold Obligations.ResetAbandonsCommand
  intro s hn hb
  refine ⟨_, step_hwReset hn, fun i r hi hr => ?_, fun i hi hr => ?_, fun e he => ?_⟩
  · exact hardwareReset_dst hb ((latchedDst_of_ok hi).trans hr)
  · exact hardwareReset_lmem_of_no_dst ((latchedDst_of_ok hi).trans hr)
  · exact hardwareReset_lmem_of_no_dst (latchedDst_of_error he)

/-! ### The idle BPX (R276) -/

/-- With nothing scheduled and `BUSY` = 0 the host moves, and nothing stays scheduled (log 4). -/
theorem nextTurn_of_idle {s : State} (hb : s.status.busy = false) (hs : s.schedule = []) :
    nextTurn s = (.host, []) := by
  rw [nextTurn, hs, hb]
  rfl

/-- Settles O7: the turn is the host's, and it makes no access. -/
theorem idleMachineWaits : Obligations.IdleMachineWaits := by
  unfold Obligations.IdleMachineWaits
  intro s hb hq hs
  have hn := nextTurn_of_idle hb hs
  calc
    step s = hostTurn { s with schedule := (nextTurn s).2 } := step_host (congrArg Prod.fst hn)
    _ = .next { s with schedule := (nextTurn s).2 } := hostTurn_nil hq
    _ = .next s := by rw [hn, ← hs]

/-! ### The state after power-up (R274, R275) -/

/-- Settles O58: the registers are as `resetRegisters` leaves them, and no LMEM byte is listed. -/
theorem resetState : Obligations.ResetState := by
  unfold Obligations.ResetState
  intro size
  rw [← resetRegisters_resetOf]
  exact ⟨rfl, Status.toWord_reset, rfl, rfl, rfl, rfl, rfl, rfl, rfl, rfl, resetRegisters_crcResult _,
    rfl, rfl, resetRegisters_irq _, fun _ => rfl⟩

/-- Settles O59: no byte is listed, `STATUS` is at its reset value, and no access is held. -/
theorem resetSatisfiesInvariant : Obligations.ResetSatisfiesInvariant := by
  unfold Obligations.ResetSatisfiesInvariant
  intro size hpos hle
  exact {
    lmem_wf := List.Pairwise.nil
    lmem_in := fun _ hc => absurd hc List.not_mem_nil
    size_pos := hpos
    size_le := hle
    busy_not_done := Status.inv_reset.busy_not_done
    no_err := Status.inv_reset.no_err
    err_known := Status.inv_reset.err_known
    held_busy := State.heldInv_of_not_held rfl }

end Sys2Proof.Machine
end
